-- ==== Sys2Proof/Word.lean ====
section
/-! DEFINITION. The words of the machine (00_scope.md R6 to R8): bytes, 16-bit words, 12-bit addresses,
register numbers and key codes. All values are unsigned. -/

namespace Sys2Proof

/-- A general register, a timer or a byte of memory (R20, R26 to R28). -/
abbrev Byte := BitVec 8

/-- I, PC, a stack entry or an instruction word (R22 to R24, R70). -/
abbrev Word := BitVec 16

/-- The field `nnn`, w[11:0] (R70). -/
abbrev Addr12 := BitVec 12

/-- A register number, the field `x` or `y` (R20, R70). -/
abbrev Reg := Fin 16

/-- A key code 0x0 to 0xF (R32). -/
abbrev Key := Fin 16

/-- VF, the register that doubles as the flag (R21). -/
abbrev VF : Reg := 15

/-- A bit as the byte 0 or 1, the form in which every flag is written to VF. -/
def bitByte (b : Bool) : Byte := if b then 1 else 0

/-- `zext_16` of a 12-bit address (R8, R71). -/
def zext12 (a : Addr12) : Word := BitVec.ofNat 16 a.toNat

/-- `zext_16` of a byte (R8, R71). -/
def zext8 (b : Byte) : Word := BitVec.ofNat 16 b.toNat

end Sys2Proof
end

