-- ==== Sys2Proof/Config.lean ====
section
/-! DEFINITION. What one machine fixes and the spec leaves to it (00_scope.md R6), and the two free values.

FIXED values of R6 (a model must not vary them) are the named constants; the OPEN parameters are the fields of
`Params`, which `State.cfg` carries so that a claim quantifies over every choice (log 3). -/

namespace Sys2Proof

/-- MEM_SIZE (R6, R50). -/
abbrev memSize : Nat := 4096

/-- The size of the font table, 0x000 to 0x04F (R6, R53). -/
abbrev fontSize : Nat := 80

/-- LOAD_BASE (R6, R325). -/
abbrev loadBase : Nat := 0x200

/-- The largest program, 4096 - 0x200 = 3584 bytes (R6, R325). -/
abbrev maxImage : Nat := memSize - loadBase

/-- PC_RESET (R6, R322). -/
abbrev pcReset : Word := 0x200

/-- ALIAS_ORDER (R161): how 8xy5, 8xy6, 8xy7 and 8xyE read a source when VF is both operand and flag. -/
inductive AliasOrder where
  | snapshot
  | sequential
  deriving DecidableEq, Repr

/-- FONT_WRITE_POLICY (R56). -/
inductive FontPolicy where
  | fault
  | write
  deriving DecidableEq, Repr

/-- FONT_BYTES: sixteen glyphs of five bytes (R53, R54). -/
abbrev Font := Vector (Vector Byte 5) 16

/-- The open parameters of R6. STACK_DEPTH is at least 8, so it is held as the number of entries beyond eight. -/
structure Params where
  extraStack    : Nat
  aliasOrder    : AliasOrder
  fx1eSetsVF    : Bool
  fontPolicy    : FontPolicy
  font          : Font
  deriving DecidableEq, Repr

/-- STACK_DEPTH (R6, R24). -/
def Params.stackDepth (p : Params) : Nat := p.extraStack + 8

/-- The default FONT_BYTES, the table of R53. PRESUMED (the spec takes it from general knowledge, D9, G1; log 5). -/
def defaultFont : Font :=
  #v[#v[0xF0, 0x90, 0x90, 0x90, 0xF0], #v[0x20, 0x60, 0x20, 0x20, 0x70],
     #v[0xF0, 0x10, 0xF0, 0x80, 0xF0], #v[0xF0, 0x10, 0xF0, 0x10, 0xF0],
     #v[0x90, 0x90, 0xF0, 0x10, 0x10], #v[0xF0, 0x80, 0xF0, 0x10, 0xF0],
     #v[0xF0, 0x80, 0xF0, 0x90, 0xF0], #v[0xF0, 0x10, 0x20, 0x40, 0x40],
     #v[0xF0, 0x90, 0xF0, 0x90, 0xF0], #v[0xF0, 0x90, 0xF0, 0x10, 0xF0],
     #v[0xF0, 0x90, 0xF0, 0x90, 0x90], #v[0xE0, 0x90, 0xE0, 0x90, 0xE0],
     #v[0xF0, 0x80, 0x80, 0x80, 0xF0], #v[0xE0, 0x90, 0x90, 0x90, 0xE0],
     #v[0xF0, 0x80, 0xF0, 0x80, 0xF0], #v[0xF0, 0x80, 0xF0, 0x80, 0x80]]

/-- The defaults of R6, for a machine whose stack holds `extra` entries beyond eight. -/
def Params.defaults (extra : Nat) : Params where
  extraStack := extra
  aliasOrder := .snapshot
  fx1eSetsVF := true
  fontPolicy := .fault
  font       := defaultFont

/-- FREE VALUE (log 4): how many entries beyond eight the stack of the machine after reset holds. The spec gives
STACK_DEPTH no default, only the bound 8 (R6, R24). -/
opaque Config.extraStack : Nat

/-- FREE VALUE (log 6): the byte that the n-th Rand8 draw returns, any value 0 to 255 (R10, R173). -/
opaque Config.rand8 : Nat → Byte

end Sys2Proof
end

