-- ==== Sys2Proof/Syntax.lean ====
section
/-! DEFINITION. The 34 instructions of spec/opcode_table.json, one constructor per row, in the table's order
(30_encoding.md R70, R76). Operands are typed by their fields, so an operand outside its field cannot be written. -/

namespace Sys2Proof

inductive Instr where
  /-- 00E0 CLS (R104) -/
  | cls
  /-- 00EE RET (R120) -/
  | ret
  /-- 1nnn JP nnn (R121) -/
  | jp (nnn : Addr12)
  /-- 2nnn CALL nnn (R122) -/
  | call (nnn : Addr12)
  /-- 3xnn SE Vx, nn (R141) -/
  | seImm (x : Reg) (nn : Byte)
  /-- 4xnn SNE Vx, nn (R142) -/
  | sneImm (x : Reg) (nn : Byte)
  /-- 5xy0 SE Vx, Vy (R143) -/
  | seReg (x y : Reg)
  /-- 6xnn LD Vx, nn (R162) -/
  | ldImm (x : Reg) (nn : Byte)
  /-- 7xnn ADD Vx, nn (R163) -/
  | addImm (x : Reg) (nn : Byte)
  /-- 8xy0 LD Vx, Vy (R164) -/
  | ldReg (x y : Reg)
  /-- 8xy1 OR Vx, Vy (R165) -/
  | orReg (x y : Reg)
  /-- 8xy2 AND Vx, Vy (R166) -/
  | andReg (x y : Reg)
  /-- 8xy3 XOR Vx, Vy (R167) -/
  | xorReg (x y : Reg)
  /-- 8xy4 ADD Vx, Vy (R168) -/
  | addReg (x y : Reg)
  /-- 8xy5 SUB Vx, Vy (R169) -/
  | sub (x y : Reg)
  /-- 8xy6 SHR Vx (R170); `y` is encoded and ignored (R80), kept so that every word has a term of its own (log 15) -/
  | shr (x y : Reg)
  /-- 8xy7 SUBN Vx, Vy (R171) -/
  | subn (x y : Reg)
  /-- 8xyE SHL Vx (R172); `y` is encoded and ignored (R80; log 15) -/
  | shl (x y : Reg)
  /-- 9xy0 SNE Vx, Vy (R144) -/
  | sneReg (x y : Reg)
  /-- Annn LD I, nnn (R200) -/
  | ldI (nnn : Addr12)
  /-- Bnnn JP V0, nnn (R123) -/
  | jpV0 (nnn : Addr12)
  /-- Cxnn RND Vx, nn (R173) -/
  | rnd (x : Reg) (nn : Byte)
  /-- Dxyn DRW Vx, Vy, n (R105); `n` is the number of rows, 0 to 15 -/
  | drw (x y : Reg) (n : Fin 16)
  /-- Ex9E SKP Vx (R234) -/
  | skp (x : Reg)
  /-- ExA1 SKNP Vx (R235) -/
  | sknp (x : Reg)
  /-- Fx07 LD Vx, DT (R253) -/
  | ldVxDt (x : Reg)
  /-- Fx0A LD Vx, K (R236) -/
  | ldVxK (x : Reg)
  /-- Fx15 LD DT, Vx (R254) -/
  | ldDtVx (x : Reg)
  /-- Fx18 LD ST, Vx (R255) -/
  | ldStVx (x : Reg)
  /-- Fx1E ADD I, Vx (R201) -/
  | addI (x : Reg)
  /-- Fx29 LD F, Vx (R202) -/
  | ldF (x : Reg)
  /-- Fx33 LD B, Vx (R203) -/
  | ldB (x : Reg)
  /-- Fx55 LD [I], Vx (R204) -/
  | storeRegs (x : Reg)
  /-- Fx65 LD Vx, [I] (R205) -/
  | loadRegs (x : Reg)
  deriving DecidableEq, Repr

end Sys2Proof
end

