-- ==== Sys2Proof/Decode.lean ====
section
/-! DEFINITION. The decoder, total on any bytes and rejecting by name, and the encoder (30_encoding.md R70 to R82).
The decoder dispatches on the top nibble and again on the trailing nibble or byte, as R75 and R76 lay it out. -/

namespace Sys2Proof

/-- Why bytes decode to no instruction. -/
inductive DecodeError where
  /-- Fewer than the two bytes of an instruction (R81). -/
  | truncated
  /-- A word of no row (R77). -/
  | unknownOpcode (w : Word)
  deriving DecidableEq, Repr

/-- The field `c` = w[15:12] (R70). -/
def fieldC (w : Word) : Nat := w.toNat / 4096

/-- The field `x` = w[11:8] (R70). -/
def fieldX (w : Word) : Reg := Fin.ofNat 16 (w.toNat / 256)

/-- The field `y` = w[7:4] (R70). -/
def fieldY (w : Word) : Reg := Fin.ofNat 16 (w.toNat / 16)

/-- The field `n` = w[3:0] (R70). -/
def fieldN (w : Word) : Fin 16 := Fin.ofNat 16 w.toNat

/-- The field `nn` = w[7:0] (R70). -/
def fieldNN (w : Word) : Byte := BitVec.ofNat 8 w.toNat

/-- The field `nnn` = w[11:0] (R70). -/
def fieldNNN (w : Word) : Addr12 := BitVec.ofNat 12 w.toNat

/-- Class 0x0: the whole word selects (R76). -/
def decodeFixed (w : Word) : Option Instr :=
  if w = 0x00E0 then some .cls else if w = 0x00EE then some .ret else none

/-- Class 0x8: the low nibble selects (R76). -/
def decodeAlu (w : Word) : Option Instr :=
  match w.toNat % 16 with
  | 0x0 => some (.ldReg (fieldX w) (fieldY w))
  | 0x1 => some (.orReg (fieldX w) (fieldY w))
  | 0x2 => some (.andReg (fieldX w) (fieldY w))
  | 0x3 => some (.xorReg (fieldX w) (fieldY w))
  | 0x4 => some (.addReg (fieldX w) (fieldY w))
  | 0x5 => some (.sub (fieldX w) (fieldY w))
  | 0x6 => some (.shr (fieldX w) (fieldY w))
  | 0x7 => some (.subn (fieldX w) (fieldY w))
  | 0xE => some (.shl (fieldX w) (fieldY w))
  | _ => none

/-- Class 0xE: the low byte selects (R76). -/
def decodeKey (w : Word) : Option Instr :=
  match w.toNat % 256 with
  | 0x9E => some (.skp (fieldX w))
  | 0xA1 => some (.sknp (fieldX w))
  | _ => none

/-- Class 0xF: the low byte selects (R76). -/
def decodeMisc (w : Word) : Option Instr :=
  match w.toNat % 256 with
  | 0x07 => some (.ldVxDt (fieldX w))
  | 0x0A => some (.ldVxK (fieldX w))
  | 0x15 => some (.ldDtVx (fieldX w))
  | 0x18 => some (.ldStVx (fieldX w))
  | 0x1E => some (.addI (fieldX w))
  | 0x29 => some (.ldF (fieldX w))
  | 0x33 => some (.ldB (fieldX w))
  | 0x55 => some (.storeRegs (fieldX w))
  | 0x65 => some (.loadRegs (fieldX w))
  | _ => none

/-- `decode(w)`: the instruction of the word, or none for UnknownOpcode (R75 to R78, R82). -/
def decodeWord (w : Word) : Option Instr :=
  match fieldC w with
  | 0x0 => decodeFixed w
  | 0x1 => some (.jp (fieldNNN w))
  | 0x2 => some (.call (fieldNNN w))
  | 0x3 => some (.seImm (fieldX w) (fieldNN w))
  | 0x4 => some (.sneImm (fieldX w) (fieldNN w))
  | 0x5 => if w.toNat % 16 = 0 then some (.seReg (fieldX w) (fieldY w)) else none
  | 0x6 => some (.ldImm (fieldX w) (fieldNN w))
  | 0x7 => some (.addImm (fieldX w) (fieldNN w))
  | 0x8 => decodeAlu w
  | 0x9 => if w.toNat % 16 = 0 then some (.sneReg (fieldX w) (fieldY w)) else none
  | 0xA => some (.ldI (fieldNNN w))
  | 0xB => some (.jpV0 (fieldNNN w))
  | 0xC => some (.rnd (fieldX w) (fieldNN w))
  | 0xD => some (.drw (fieldX w) (fieldY w) (fieldN w))
  | 0xE => decodeKey w
  | 0xF => decodeMisc w
  | _ => none

/-- The 16-bit word of two bytes, big-endian: the byte at the lower address is the high byte (R57, R73). -/
def wordOfBytes (hi lo : Byte) : Word := BitVec.ofNat 16 (hi.toNat * 256 + lo.toNat)

/-- The high byte of a word, stored at the lower address (R57). -/
def highByte (w : Word) : Byte := BitVec.ofNat 8 (w.toNat / 256)

/-- The low byte of a word, stored at the higher address (R57). -/
def lowByte (w : Word) : Byte := BitVec.ofNat 8 w.toNat

/-- Decodes the instruction at the head of a byte sequence and returns it with the bytes after it (R73, R81). -/
def decode : List Byte → Except DecodeError (Instr × List Byte)
  | hi :: lo :: rest =>
    match decodeWord (wordOfBytes hi lo) with
    | some i => .ok (i, rest)
    | none => .error (.unknownOpcode (wordOfBytes hi lo))
  | _ => .error .truncated

/-- Format ADDR: class and 12-bit address (R72). -/
def packAddr (c : Nat) (nnn : Addr12) : Word := BitVec.ofNat 16 (c * 4096 + nnn.toNat)

/-- Formats XNN and XS: class, register and byte (R72). -/
def packXNN (c : Nat) (x : Reg) (nn : Byte) : Word := BitVec.ofNat 16 (c * 4096 + x.val * 256 + nn.toNat)

/-- Formats XYS and XYN: class, two registers and nibble (R72). -/
def packXYN (c : Nat) (x y : Reg) (n : Fin 16) : Word :=
  BitVec.ofNat 16 (c * 4096 + x.val * 256 + y.val * 16 + n.val)

/-- The word of an instruction, from the formats of R72 and the rows of R76. -/
def encode : Instr → Word
  | .cls => 0x00E0
  | .ret => 0x00EE
  | .jp nnn => packAddr 0x1 nnn
  | .call nnn => packAddr 0x2 nnn
  | .seImm x nn => packXNN 0x3 x nn
  | .sneImm x nn => packXNN 0x4 x nn
  | .seReg x y => packXYN 0x5 x y 0x0
  | .ldImm x nn => packXNN 0x6 x nn
  | .addImm x nn => packXNN 0x7 x nn
  | .ldReg x y => packXYN 0x8 x y 0x0
  | .orReg x y => packXYN 0x8 x y 0x1
  | .andReg x y => packXYN 0x8 x y 0x2
  | .xorReg x y => packXYN 0x8 x y 0x3
  | .addReg x y => packXYN 0x8 x y 0x4
  | .sub x y => packXYN 0x8 x y 0x5
  | .shr x y => packXYN 0x8 x y 0x6
  | .subn x y => packXYN 0x8 x y 0x7
  | .shl x y => packXYN 0x8 x y 0xE
  | .sneReg x y => packXYN 0x9 x y 0x0
  | .ldI nnn => packAddr 0xA nnn
  | .jpV0 nnn => packAddr 0xB nnn
  | .rnd x nn => packXNN 0xC x nn
  | .drw x y n => packXYN 0xD x y n
  | .skp x => packXNN 0xE x 0x9E
  | .sknp x => packXNN 0xE x 0xA1
  | .ldVxDt x => packXNN 0xF x 0x07
  | .ldVxK x => packXNN 0xF x 0x0A
  | .ldDtVx x => packXNN 0xF x 0x15
  | .ldStVx x => packXNN 0xF x 0x18
  | .addI x => packXNN 0xF x 0x1E
  | .ldF x => packXNN 0xF x 0x29
  | .ldB x => packXNN 0xF x 0x33
  | .storeRegs x => packXNN 0xF x 0x55
  | .loadRegs x => packXNN 0xF x 0x65

/-- The table's word as the hardware stores it: `nbits` bits of `w`, every bit above them 0, high byte first. -/
def tableWordBytes (nbits w : Nat) : List Byte :=
  let word : Word := BitVec.ofNat 16 (w % 2 ^ nbits)
  [highByte word, lowByte word]

/-- The instruction the decoder reads from a word of spec/opcode_table.json. -/
def decodeTableWord (nbits w : Nat) : Option Instr :=
  match decode (tableWordBytes nbits w) with
  | .ok (i, _) => some i
  | .error _ => none

end Sys2Proof
end

