-- ==== Sys2Proof/Machine/Memory.lean ====
section
/-! DEFINITION. Memory as data (10_state.md R28; 20_memory.md R50 to R56): the bytes that differ from what they hold
right after reset, as pairs of address and byte in rising order of address (log 9). -/

namespace Sys2Proof.Machine

/-- The 4096 bytes, as the list of those that differ from their reset value. -/
abbrev Memory := List Host.Cell

/-- What an unlisted address reads as: its reset value, FONT_BYTES at 0x000 to 0x04F and zero above (R40, R53, R54).
Glyph `d` starts at `5 * d`. -/
def resetByte (font : Font) (a : Nat) : Byte :=
  if h : a < 80 then (font[a / 5]'(by omega))[a % 5]'(by omega) else 0

/-- `M[a]` (R55, the read itself; the bounds check is `checkRead`). -/
def Memory.get (font : Font) : Memory → Nat → Byte
  | [], a => resetByte font a
  | (k, b) :: rest, a => if k = a then b else Memory.get font rest a

/-- Puts the pair of address and byte in front, or leaves it out where the byte is the reset value. -/
def Memory.cons (font : Font) (a : Nat) (b : Byte) (m : Memory) : Memory :=
  if b = resetByte font a then m else (a, b) :: m

/-- `M[a] <- b` (R56, the write itself; its checks are `checkWrite`). -/
def Memory.set (font : Font) : Memory → Nat → Byte → Memory
  | [], a, b => Memory.cons font a b []
  | (k, c) :: rest, a, b =>
    if a < k then Memory.cons font a b ((k, c) :: rest)
    else if a = k then Memory.cons font a b rest
    else (k, c) :: Memory.set font rest a b

/-- The canonical form: addresses strictly rising and inside the memory, no entry equal to its reset value. -/
abbrev Memory.wf (font : Font) (m : Memory) : Prop :=
  m.Pairwise (fun p q => p.1 < q.1) ∧ ∀ c ∈ m, c.1 < memSize ∧ c.2 ≠ resetByte font c.1

end Sys2Proof.Machine
end

