-- ==== Sys2Proof/Machine/State.lean ====
section
/-! DEFINITION. The state of the core (10_state.md R20 to R40), its errors (60_exceptions.md R271, R274) and its
state after reset (R40, R320). -/

namespace Sys2Proof.Machine

/-- The errors that halt the core (R271, R272). -/
inductive FatalError where
  /-- 2nnn on a full stack (R122) -/
  | stackOverflow
  /-- 00EE on an empty stack (R120) -/
  | stackUnderflow
  /-- an address above 0xFFF in a fetch or in Dxyn, Fx33, Fx55, Fx65 (R55, R56, R73) -/
  | memoryBounds
  /-- Fx33 or Fx55 storing at or below 0x04F under FONT_WRITE_POLICY = fault (R56) -/
  | protectedWrite
  /-- Ex9E or ExA1 with Vx > 0xF (R233) -/
  | keyIndexRange
  deriving DecidableEq, Repr

/-- Every error of R271. -/
inductive ErrorKind where
  | unknownOpcode
  | fatal (e : FatalError)
  | invalidProgramSize
  deriving DecidableEq, Repr

/-- The error record of R274. Its field `name` is `FatalError.name kind`, its field `code` is `FatalError.code kind`. -/
structure ErrorRecord where
  kind   : FatalError
  /-- the address of the instruction whose fetch or execution raised the error -/
  at_    : Word
  /-- its word, none for an error of the fetch -/
  word   : Option Word
  /-- the out-of-range or protected address, or the key value; none for the stack errors -/
  detail : Option Nat
  deriving DecidableEq, Repr

/-- The machine mode (R31). -/
inductive Mode where
  | running
  | awaitingKey (x : Reg)
  | halted (r : ErrorRecord)
  deriving DecidableEq, Repr

/-- An UnknownOpcode report: fetch address and word (R33, R276). -/
structure Report where
  at_  : Word
  word : Word
  deriving DecidableEq, Repr

/-- The event outputs (R258). -/
inductive OutEvent where
  | soundStopped
  deriving DecidableEq, Repr

/-- `D[x][y]` is `display[y][x]`: 32 rows of 64 pixels (R29). -/
abbrev Display := Vector (Vector Bool 64) 32

/-- The state of one core. `cfg`, `draws` and `events` are the model's own (log 3, log 6, log 7). -/
structure State where
  /-- V0 to VF (R20) -/
  v       : Vector Byte 16
  /-- I (R22) -/
  i       : Word
  /-- PC (R23) -/
  pc      : Word
  /-- S, bottom first, top last (R9, R24) -/
  stack   : List Word
  /-- DT (R26) -/
  dt      : Byte
  /-- ST (R27) -/
  st      : Byte
  /-- M (R28) -/
  mem     : Memory
  /-- D (R29) -/
  display : Display
  /-- the display dirty flag (R30) -/
  dirty   : Bool
  /-- K (R32) -/
  keys    : Vector Bool 16
  /-- the machine mode with the error record (R31, R34) -/
  mode    : Mode
  /-- the log of UnknownOpcode reports, oldest first (R33) -/
  diag    : List Report
  /-- the parameters of the machine (R6), which no move changes -/
  cfg     : Params
  /-- how many Rand8 draws have been made (R10, R173) -/
  draws   : Nat
  /-- the events emitted so far, oldest first (R258) -/
  events  : List OutEvent
  deriving DecidableEq, Repr

/-- Every pixel off (R103). -/
def blankDisplay : Display := Vector.replicate 32 (Vector.replicate 64 false)

/-- The state after reset of a machine with parameters `p` (R40, R320). -/
def State.resetWith (p : Params) : State where
  v       := Vector.replicate 16 0
  i       := 0
  pc      := pcReset
  stack   := []
  dt      := 0
  st      := 0
  mem     := []
  display := blankDisplay
  dirty   := false
  keys    := Vector.replicate 16 false
  mode    := .running
  diag    := []
  cfg     := p
  draws   := 0
  events  := []

/-- The machine right after reset, with the defaults of R6 and a stack of at least eight entries (log 4, log 5). -/
def State.reset : State := State.resetWith (Params.defaults Config.extraStack)

/-- No move of the core ends in a fault: the spec gives every error an effect on the state, which is a next state
(R273, R276; log 1). Hence no constructor. -/
inductive Fault where
  deriving DecidableEq, Repr

/-- Why a move has no next state. -/
inductive Refusal where
  /-- An instruction that has no meaning yet; no arm of `exec` answers with it. Safe: the machine stops. -/
  | notModelled (mnemonic : String)
  /-- `transition` answers it for a `loadProgram` that is not the first after a reset or comes after the first step:
  "a call at any other time is not a transition of this core" (R326). Safe: the machine stops. -/
  | loadProgramClosed
  deriving DecidableEq, Repr

/-- What a meaning or a step answers. -/
abbrev Result := Host.Outcome State Fault Refusal

end Sys2Proof.Machine
end

