-- ==== Sys2Proof/Machine/Ops.lean ====
section
/-! DEFINITION. The named operations over registers, memory, stack and timers (00_scope.md R9, R10), the checks of
20_memory.md R55 and R56, and taking an error (60_exceptions.md R270 to R281) with the return from one. -/

namespace Sys2Proof.Machine

/-- The number of a fatal error (R271). -/
def FatalError.code : FatalError → Nat
  | .stackOverflow => 2
  | .stackUnderflow => 3
  | .memoryBounds => 5
  | .protectedWrite => 6
  | .keyIndexRange => 7

/-- The name of a fatal error (R271). -/
def FatalError.name : FatalError → String
  | .stackOverflow => "StackOverflow"
  | .stackUnderflow => "StackUnderflow"
  | .memoryBounds => "MemoryBounds"
  | .protectedWrite => "ProtectedWrite"
  | .keyIndexRange => "KeyIndexRange"

/-- The number of an error (R271). -/
def ErrorKind.code : ErrorKind → Nat
  | .unknownOpcode => 1
  | .fatal e => e.code
  | .invalidProgramSize => 4

/-- The name of an error (R271). -/
def ErrorKind.name : ErrorKind → String
  | .unknownOpcode => "UnknownOpcode"
  | .fatal e => e.name
  | .invalidProgramSize => "InvalidProgramSize"

/-- The field `code` of the record (R274). -/
def ErrorRecord.code (r : ErrorRecord) : Nat := r.kind.code

/-- The field `name` of the record (R274). -/
def ErrorRecord.name (r : ErrorRecord) : String := r.kind.name

namespace State

/-- `V[r]` (R9). -/
def reg (s : State) (r : Reg) : Byte := s.v[r.val]

/-- `V[r] <- b` (R9). -/
def setReg (s : State) (r : Reg) (b : Byte) : State := { s with v := s.v.set r.val b }

/-- `M[a]` (R9, R55). -/
def byte (s : State) (a : Nat) : Byte := s.mem.get s.cfg.font a

/-- `M[a] <- b` (R9, R56). -/
def setByte (s : State) (a : Nat) (b : Byte) : State := { s with mem := s.mem.set s.cfg.font a b }

/-- `M[a], M[a+1], ..., M[a+n-1]`, in increasing address (R59). -/
def readBytes (s : State) (a : Nat) : Nat → List Byte
  | 0 => []
  | n + 1 => s.byte a :: s.readBytes (a + 1) n

/-- Stores the bytes at `a, a+1, ...`, in increasing address (R59). -/
def writeBytes (s : State) (a : Nat) : List Byte → State
  | [] => s
  | b :: bs => (s.setByte a b).writeBytes (a + 1) bs

/-- `I <- w` (R9). -/
def setI (s : State) (w : Word) : State := { s with i := w }

/-- `PC <- w` (R9). -/
def setPc (s : State) (w : Word) : State := { s with pc := w }

/-- `skip`, which is `PC <- PC + 2`; the fetch advances PC the same way (R10, R73, R140; log 19). -/
def skip (s : State) : State := s.setPc (s.pc + 2)

/-- `if c: PC <- PC + 2` (R140). -/
def skipIf (s : State) (c : Bool) : State := if c then s.skip else s

/-- `S <- push(S, w)` (R9). -/
def push (s : State) (w : Word) : State := { s with stack := s.stack ++ [w] }

/-- `S <- pop(S)` (R9). -/
def pop (s : State) : State := { s with stack := s.stack.dropLast }

/-- `DT <- b` (R9). -/
def setDt (s : State) (b : Byte) : State := { s with dt := b }

/-- `ST <- b`, with the event SoundStopped when ST goes from a nonzero value to 0 (R255, R258). -/
def setSt (s : State) (b : Byte) : State :=
  { s with st := b, events := if s.st ≠ 0 ∧ b = 0 then s.events ++ [.soundStopped] else s.events }

/-- The next byte of the random source, and the state in which it has been drawn (R10, R173; log 6). -/
def draw (s : State) : Byte × State := (Config.rand8 s.draws, { s with draws := s.draws + 1 })

/-- `report UnknownOpcode(a, w)`: append to `diag`, nothing else (R10, R276). -/
def report (s : State) (a w : Word) : State := { s with diag := s.diag ++ [⟨a, w⟩] }

/-- Taking a fatal error: `mode <- Halted(record)` and no other write (R10, R273, R275). No address is entered, no
register saved, no mask changed (R280). -/
def halt (s : State) (r : ErrorRecord) : State := { s with mode := .halted r }

/-- An error raised by instruction `i`. The fetch has advanced PC, so the instruction stands at PC - 2 (R73, R275);
its word is `encode i` (R274; log 17). -/
def raise (s : State) (i : Instr) (e : FatalError) (detail : Option Nat) : State :=
  s.halt { kind := e, at_ := s.pc - 2, word := some (encode i), detail := detail }

/-- An error of the fetch at PC: PC keeps its value and there is no word (R73, R275). -/
def raiseFetch (s : State) (e : FatalError) (a : Nat) : State :=
  s.halt { kind := e, at_ := s.pc, word := none, detail := some a }

/-- The only way on after a fatal error, and a host move of every mode: `reset()` (R281, R320, R321). It keeps the
machine's parameters, and the model's own `draws` and `events` go on (log 6, log 7). -/
def hostReset (s : State) : State :=
  { State.resetWith s.cfg with draws := s.draws, events := s.events }

end State

/-- `check_read(a)` (R55). -/
def checkRead (a : Nat) : Option FatalError :=
  if a > 0xFFF then some .memoryBounds else none

/-- `check_write(a)`: the bound first, then the font region (R56, R278). -/
def checkWrite (policy : FontPolicy) (a : Nat) : Option FatalError :=
  if a > 0xFFF then some .memoryBounds
  else if a ≤ 0x04F ∧ policy = .fault then some .protectedWrite
  else none

/-- The first of the `n` addresses from `a` up that a check refuses, in increasing address (R60, R278). -/
def firstFailure (check : Nat → Option FatalError) (a : Nat) : Nat → Option (FatalError × Nat)
  | 0 => none
  | n + 1 =>
    match check a with
    | some e => some (e, a)
    | none => firstFailure check (a + 1) n

/-- An instruction that touches `n` bytes from `a` up: every address is checked before its first write, and the
first failure is raised with nothing written (R60, R275, R278). -/
def checked (i : Instr) (s : State) (check : Nat → Option FatalError) (a n : Nat) (done : State) : Result :=
  match firstFailure check a n with
  | some (e, bad) => .next (s.raise i e (some bad))
  | none => .next done

end Sys2Proof.Machine
end

