-- ==== Sys2Proof/Machine/Flags.lean ====
section
/-! DEFINITION. Every value written to VF as a flag, and the order in which the flag and the result are written
(10_state.md R21; 43_alu.md R160, R161). -/

namespace Sys2Proof.Machine

/-- Carry of 8xy4: the exact sum exceeds 255 (R160, R168). -/
def carryFlag (a b : Byte) : Byte := bitByte (decide (a.toNat + b.toNat > 255))

/-- No borrow of 8xy5 and 8xy7: minuend at least subtrahend (R160, R169, R171). -/
def noBorrowFlag (a b : Byte) : Byte := bitByte (decide (a.toNat ≥ b.toNat))

/-- The bit that 8xy6 shifts out, bit 0 (R170). -/
def lowBitFlag (a : Byte) : Byte := bitByte (a.getLsbD 0)

/-- The bit that 8xyE shifts out, bit 7 (R172). -/
def highBitFlag (a : Byte) : Byte := bitByte (a.getLsbD 7)

/-- Index overflow of Fx1E: the exact sum exceeds 0xFFF (R201). -/
def indexFlag (sum : Nat) : Byte := bitByte (decide (sum > 0xFFF))

/-- Writes the flag and then the result of an instruction whose operands may be VF (R161). Under `snapshot` both are
computed from the registers at the start; under `sequential` the result reads them after the flag write. The result
is written last, so with `x = F` VF ends holding the result. -/
def flagThenResult (s : State) (x y : Reg) (flag result : Byte → Byte → Byte) : State :=
  let flagged := s.setReg VF (flag (s.reg x) (s.reg y))
  match s.cfg.aliasOrder with
  | .snapshot => flagged.setReg x (result (s.reg x) (s.reg y))
  | .sequential => flagged.setReg x (result (flagged.reg x) (flagged.reg y))

end Sys2Proof.Machine
end

