-- ==== Sys2Proof/Machine/Operands.lean ====
section
/-! DEFINITION. The operand and addressing forms of the instruction set (44_index_memory.md R206): register direct is
`State.reg`, immediate is the operand itself, and the stack is `State.push` and `State.pop`; the rest are here. -/

namespace Sys2Proof.Machine

/-- Absolute address: `zext_16(nnn)` (R71, R206). -/
def absolute (nnn : Addr12) : Word := zext12 nnn

/-- Base plus register: `zext_16(nnn) + zext_16(V[0])`, exact (R123, R206). -/
def State.basePlusV0 (s : State) (nnn : Addr12) : Word := zext12 nnn + zext8 (s.reg 0)

/-- Indexed by I with offset `k`: `I + k`, an exact natural number (R51, R206). -/
def State.indexed (s : State) (k : Nat) : Nat := s.i.toNat + k

/-- The bytes Fx55 stores, V0 to Vx inclusive (R204). -/
def State.regsUpTo (s : State) (x : Reg) : List Byte := s.v.toList.take (x.val + 1)

/-- Puts the bytes into `V[k], V[k+1], ...` (R205). -/
def setRegsFrom (v : Vector Byte 16) (k : Nat) : List Byte → Vector Byte 16
  | [] => v
  | b :: bs => setRegsFrom (v.setIfInBounds k b) (k + 1) bs

/-- The three decimal digits of a byte: hundreds, tens, units (R203). -/
def bcdDigits (b : Byte) : List Byte :=
  [BitVec.ofNat 8 (b.toNat / 100), BitVec.ofNat 8 (b.toNat / 10 % 10), BitVec.ofNat 8 (b.toNat % 10)]

end Sys2Proof.Machine
end

