-- ==== Sys2Proof/Machine/Alu.lean ====
section
/-! DEFINITION. Register loads, arithmetic, logic and random (43_alu.md R160 to R173). Arithmetic on `Byte` is
modulo 256 (R160). -/

namespace Sys2Proof.Machine

/-- 6xnn LD Vx, nn (R162). -/
def execLdImm (x : Reg) (nn : Byte) (s : State) : Result := .next (s.setReg x nn)

/-- 7xnn ADD Vx, nn: no flag (R163). -/
def execAddImm (x : Reg) (nn : Byte) (s : State) : Result := .next (s.setReg x (s.reg x + nn))

/-- 8xy0 LD Vx, Vy (R164). -/
def execLdReg (x y : Reg) (s : State) : Result := .next (s.setReg x (s.reg y))

/-- 8xy1 OR Vx, Vy: no flag (R165). -/
def execOrReg (x y : Reg) (s : State) : Result := .next (s.setReg x (s.reg x ||| s.reg y))

/-- 8xy2 AND Vx, Vy: no flag (R166). -/
def execAndReg (x y : Reg) (s : State) : Result := .next (s.setReg x (s.reg x &&& s.reg y))

/-- 8xy3 XOR Vx, Vy: no flag (R167). -/
def execXorReg (x y : Reg) (s : State) : Result := .next (s.setReg x (s.reg x ^^^ s.reg y))

/-- 8xy4 ADD Vx, Vy (R168): the sum is computed first, under either ALIAS_ORDER. -/
def execAddReg (x y : Reg) (s : State) : Result :=
  .next ((s.setReg VF (carryFlag (s.reg x) (s.reg y))).setReg x (s.reg x + s.reg y))

/-- 8xy5 SUB Vx, Vy (R169). -/
def execSub (x y : Reg) (s : State) : Result :=
  .next (flagThenResult s x y noBorrowFlag (fun a b => a - b))

/-- 8xy6 SHR Vx (R170); `y` is ignored (R80). -/
def execShr (x _y : Reg) (s : State) : Result :=
  .next (flagThenResult s x x (fun a _ => lowBitFlag a) (fun a _ => a >>> 1))

/-- 8xy7 SUBN Vx, Vy (R171). -/
def execSubn (x y : Reg) (s : State) : Result :=
  .next (flagThenResult s x y (fun a b => noBorrowFlag b a) (fun a b => b - a))

/-- 8xyE SHL Vx (R172); `y` is ignored (R80). -/
def execShl (x _y : Reg) (s : State) : Result :=
  .next (flagThenResult s x x (fun a _ => highBitFlag a) (fun a _ => a <<< 1))

/-- Cxnn RND Vx, nn (R173): one draw per execution, a free value (log 6). -/
def execRnd (x : Reg) (nn : Byte) (s : State) : Result :=
  .next (s.draw.2.setReg x (nn &&& s.draw.1))

end Sys2Proof.Machine
end

