-- ==== Sys2Proof/Machine/Display.lean ====
section
/-! DEFINITION. The display buffer and its instructions 00E0 and Dxyn (40_display.md R100 to R107). -/

namespace Sys2Proof.Machine

/-- `D[X][Y]` (R9, R29). -/
def Display.pixel (d : Display) (X : Fin 64) (Y : Fin 32) : Bool := (d[Y.val])[X.val]

/-- `D[X][Y] <- b` (R9). -/
def Display.setPixel (d : Display) (X : Fin 64) (Y : Fin 32) (b : Bool) : Display :=
  d.set Y.val ((d[Y.val]).set X.val b)

/-- The column `(px + b) mod 64` (R100). -/
def column (px : Byte) (b : Nat) : Fin 64 := Fin.ofNat 64 (px.toNat + b)

/-- The row `(py + r) mod 32` (R100). -/
def row (py : Byte) (r : Nat) : Fin 32 := Fin.ofNat 32 (py.toNat + r)

/-- The sprite bit at column offset `b`: byte bit `7 - b`, so the most significant bit is leftmost (R101; the spec
takes it from general knowledge, D10, G2; log 14). -/
def spriteBit (bits : Byte) (b : Nat) : Bool := bits.getLsbD (7 - b)

/-- One turn of the loop of R102: XOR one pixel, and note whether it went from on to off. -/
def blitPixel (px py : Byte) (r b : Nat) (bit : Bool) (acc : Display × Bool) : Display × Bool :=
  let old := acc.1.pixel (column px b) (row py r)
  (acc.1.setPixel (column px b) (row py r) (old ^^ bit), acc.2 || (bit && old))

/-- The inner loop of R102, offsets `b`, `b+1`, ...: `n` of them. -/
def blitRow (px py : Byte) (r : Nat) (bits : Byte) (b : Nat) : Nat → Display × Bool → Display × Bool
  | 0, acc => acc
  | n + 1, acc => blitRow px py r bits (b + 1) n (blitPixel px py r b (spriteBit bits b) acc)

/-- The outer loop of R102, from row offset `r` on. -/
def blitRows (px py : Byte) (r : Nat) : List Byte → Display × Bool → Display × Bool
  | [], acc => acc
  | bits :: rest, acc => blitRows px py (r + 1) rest (blitRow px py r bits 0 8 acc)

/-- `xorBlit(px, py, rows) -> collided`, with the new buffer (R102). -/
def xorBlit (d : Display) (px py : Byte) (rows : List Byte) : Display × Bool := blitRows px py 0 rows (d, false)

/-- `clear()` and then `dirty <- 1` (R103, R107). -/
def State.clearDisplay (s : State) : State := { s with display := blankDisplay, dirty := true }

/-- The new buffer, `dirty <- 1`, `V[15] <- c` (R105, R107). -/
def State.drawn (s : State) (blit : Display × Bool) : State :=
  ({ s with display := blit.1, dirty := true }).setReg VF (bitByte blit.2)

/-- 00E0 CLS (R104). -/
def execCls (s : State) : Result := .next s.clearDisplay

/-- Dxyn DRW Vx, Vy, n (R105): the coordinates and the sprite are read before any write. -/
def execDrw (x y : Reg) (n : Fin 16) (s : State) : Result :=
  checked (.drw x y n) s checkRead (s.indexed 0) n.val
    (s.drawn (xorBlit s.display (s.reg x) (s.reg y) (s.readBytes (s.indexed 0) n.val)))

end Sys2Proof.Machine
end

