-- ==== Sys2Proof/Machine/Flow.lean ====
section
/-! DEFINITION. Jumps, calls and returns (41_flow.md R120 to R124). Each meaning runs after the fetch, so on entry
PC is the address of the instruction plus 2. -/

namespace Sys2Proof.Machine

/-- 00EE RET (R120). -/
def execRet (s : State) : Result :=
  match s.stack.getLast? with
  | none => .next (s.raise .ret .stackUnderflow none)
  | some top => .next (s.pop.setPc top)

/-- 1nnn JP nnn (R121). -/
def execJp (nnn : Addr12) (s : State) : Result := .next (s.setPc (absolute nnn))

/-- 2nnn CALL nnn (R122): the pushed PC is the address after the call. The test is for
equality, as the rule has it (log 19). -/
def execCall (nnn : Addr12) (s : State) : Result :=
  if s.stack.length = s.cfg.stackDepth then .next (s.raise (.call nnn) .stackOverflow none)
  else .next ((s.push s.pc).setPc (absolute nnn))

/-- Bnnn JP V0, nnn (R123). -/
def execJpV0 (nnn : Addr12) (s : State) : Result := .next (s.setPc (s.basePlusV0 nnn))

end Sys2Proof.Machine
end

