-- ==== Sys2Proof/Machine/Index.lean ====
section
/-! DEFINITION. The index register and memory transfer (44_index_memory.md R200 to R205). -/

namespace Sys2Proof.Machine

/-- Annn LD I, nnn (R200). -/
def execLdI (nnn : Addr12) (s : State) : Result := .next (s.setI (absolute nnn))

/-- Fx1E ADD I, Vx (R201): I is 16 bits wide, the flag compares the exact sum with 0xFFF. -/
def execAddI (x : Reg) (s : State) : Result :=
  let sum := s.i.toNat + (s.reg x).toNat
  let added := s.setI (BitVec.ofNat 16 sum)
  .next (if s.cfg.fx1eSetsVF then added.setReg VF (indexFlag sum) else added)

/-- Fx29 LD F, Vx (R202): Vx is not masked to a digit. -/
def execLdF (x : Reg) (s : State) : Result := .next (s.setI (BitVec.ofNat 16 (5 * (s.reg x).toNat)))

/-- Fx33 LD B, Vx (R203). -/
def execLdB (x : Reg) (s : State) : Result :=
  checked (.ldB x) s (checkWrite s.cfg.fontPolicy) (s.indexed 0) 3
    (s.writeBytes (s.indexed 0) (bcdDigits (s.reg x)))

/-- Fx55 LD [I], Vx (R204): I is unchanged. -/
def execStoreRegs (x : Reg) (s : State) : Result :=
  checked (.storeRegs x) s (checkWrite s.cfg.fontPolicy) (s.indexed 0) (x.val + 1)
    (s.writeBytes (s.indexed 0) (s.regsUpTo x))

/-- Fx65 LD Vx, [I] (R205): I is unchanged. -/
def execLoadRegs (x : Reg) (s : State) : Result :=
  checked (.loadRegs x) s checkRead (s.indexed 0) (x.val + 1)
    { s with v := setRegsFrom s.v 0 (s.readBytes (s.indexed 0) (x.val + 1)) }

end Sys2Proof.Machine
end

