-- ==== Sys2Proof/Machine/Keypad.lean ====
section
/-! DEFINITION. The key instructions (45_keypad.md R233 to R236). -/

namespace Sys2Proof.Machine

/-- `K[k]` for a register value, none above 0xF (R32, R233). -/
def State.keyAt (s : State) (k : Byte) : Option Bool := s.keys[k.toNat]?

/-- Ex9E and ExA1: KeyIndexRange above 0xF, else skip when the key's level is `level` (R234, R235). -/
def skipOnKey (i : Instr) (x : Reg) (level : Bool) (s : State) : Result :=
  match s.keyAt (s.reg x) with
  | none => .next (s.raise i .keyIndexRange (some (s.reg x).toNat))
  | some down => .next (s.skipIf (down == level))

/-- Ex9E SKP Vx (R234). -/
def execSkp (x : Reg) (s : State) : Result := skipOnKey (.skp x) x true s

/-- ExA1 SKNP Vx (R235). -/
def execSknp (x : Reg) (s : State) : Result := skipOnKey (.sknp x) x false s

/-- Fx0A LD Vx, K (R236): PC holds the next address already; Vx is written by `setKeyDown` (R231). -/
def execLdVxK (x : Reg) (s : State) : Result := .next { s with mode := .awaitingKey x }

end Sys2Proof.Machine
end

