-- ==== Sys2Proof/Machine/Timers.lean ====
section
/-! DEFINITION. The timer instructions (46_timers.md R253 to R255). -/

namespace Sys2Proof.Machine

/-- Fx07 LD Vx, DT (R253). -/
def execLdVxDt (x : Reg) (s : State) : Result := .next (s.setReg x s.dt)

/-- Fx15 LD DT, Vx (R254). -/
def execLdDtVx (x : Reg) (s : State) : Result := .next (s.setDt (s.reg x))

/-- Fx18 LD ST, Vx (R255), with SoundStopped when it takes ST from nonzero to 0 (R258). -/
def execLdStVx (x : Reg) (s : State) : Result := .next (s.setSt (s.reg x))

end Sys2Proof.Machine
end

