-- ==== Sys2Proof/Machine/Step.lean ====
section
/-! DEFINITION. One `step()` of the core: the mode check, fetch, advance, dispatch (30_encoding.md R73, R278). -/

namespace Sys2Proof.Machine

/-- The 16-bit word at an address: the high byte first (R57, R73). -/
def State.wordAt (s : State) (a : Nat) : Word := wordOfBytes (s.byte a) (s.byte (a + 1))

/-- Execute the fetched word: PC is advanced before the handler runs, and a word of no row is reported (R73, R77). -/
def State.execute (s : State) (w : Word) : Host.Outcome State Fault Refusal :=
  match decodeWord w with
  | some i => exec i s.skip
  | none => .next (s.skip.report s.pc w)

/-- Fetch at PC and execute. A fetch that leaves the memory raises MemoryBounds at the first bad address (R73). -/
def State.fetchExecute (s : State) : Host.Outcome State Fault Refusal :=
  match firstFailure checkRead s.pc.toNat 2 with
  | some (e, a) => .next (s.raiseFetch e a)
  | none => s.execute (s.wordAt s.pc.toNat)

/-- `step()` (R73). In `AwaitingKey` and in `Halted` it changes nothing (R237, R273; log 1, log 2). -/
def step (s : State) : Host.Outcome State Fault Refusal :=
  match s.mode with
  | .running => s.fetchExecute
  | .awaitingKey _ => .next s
  | .halted _ => .next s

/-- The state whose next step runs the instruction with these bits: the word stands at PC, as `loadProgram` would
have put it there, the mode is Running, and a PC at which nothing can be fetched is moved to 0x200 (log 18). -/
def State.withFetchWord (s : State) (nbits w : Nat) : State :=
  let at_ : Word := if s.pc.toNat + 1 < memSize then s.pc else pcReset
  { s with pc := at_, mode := .running }.writeBytes at_.toNat (tableWordBytes nbits w)

end Sys2Proof.Machine
end

