-- ==== Sys2Proof/Machine/Ports.lean ====
section
/-! DEFINITION. The host interface (60_exceptions.md R290): the moves of the host and of the Timer Clock, the outputs,
and `transition`, which performs any move. Every move is atomic (00_scope.md R5), and a run is any list of moves
(70_reset_and_hazards.md R337). -/

namespace Sys2Proof.Machine

namespace State

/-- `tickTimers()` (R251), the same in every mode (R259). -/
def tickTimers (s : State) : State :=
  let s := if s.dt ≠ 0 then s.setDt (s.dt - 1) else s
  if s.st ≠ 0 then s.setSt (s.st - 1) else s

/-- `K[k] <- level` (R9, R32). -/
def setKey (s : State) (k : Key) (level : Bool) : State := { s with keys := s.keys.set k.val level }

/-- `setKeyDown(k)` (R231): it resolves a pending Fx0A wait, in every other mode it only sets the key. -/
def setKeyDown (s : State) (k : Key) : State :=
  let s := s.setKey k true
  match s.mode with
  | .awaitingKey x => { s.setReg x (BitVec.ofNat 8 k.val) with mode := .running }
  | .running => s
  | .halted _ => s

/-- `setKeyUp(k)` (R232). -/
def setKeyUp (s : State) (k : Key) : State := s.setKey k false

/-- The grid that `consumeFrame` returns, element `64·Y + X` holding `D[X][Y]` (R109). -/
def pixelGrid (s : State) : Vector Bool (32 * 64) :=
  Vector.ofFn fun k => s.display.pixel (Fin.ofNat 64 k.val) (Fin.ofNat 32 (k.val / 64))

/-- `consumeFrame()` (R108): the grid, the old dirty flag, and the state with the flag cleared. -/
def consumeFrame (s : State) : (Vector Bool (32 * 64) × Bool) × State :=
  ((s.pixelGrid, s.dirty), { s with dirty := false })

/-- `loadProgram(bytes)` (R325): none is InvalidProgramSize, with the state unchanged (R277). The font check does not
apply, since no address lies below 0x200 (R56). -/
def loadProgram (s : State) (bytes : List Byte) : Option State :=
  if wellFormedImage bytes then some (s.writeBytes loadBase bytes) else none

/-- The level output `soundActive` (R257). -/
def soundActive (s : State) : Bool := s.st != 0

/-- The level output `mode`, whether the core is halted (R273, R290). -/
def isHalted (s : State) : Bool :=
  match s.mode with
  | .halted _ => true
  | .running => false
  | .awaitingKey _ => false

end State

/-- A move of R290. -/
inductive Event where
  | reset
  | loadProgram (bytes : List Byte)
  | step
  | tickTimers
  | setKeyDown (k : Key)
  | setKeyUp (k : Key)
  | consumeFrame
  deriving DecidableEq, Repr

/-- What a move returns to the host (R290). -/
inductive Response where
  | none
  | loaded
  | invalidProgramSize (length : Nat)
  | frame (pixelGrid : Vector Bool (32 * 64)) (wasDirty : Bool)
  deriving DecidableEq, Repr

/-- A core with what R326 asks of the host: `loadProgram` is a move only once after a reset and before the first step
(log 11). -/
structure Session where
  core     : State
  loadOpen : Bool
  deriving DecidableEq, Repr

/-- A newly created core, which is a core after reset (R321). -/
def Session.create (p : Params) : Session := { core := State.resetWith p, loadOpen := true }

/-- What a move answers: the next session with the response, or why there is none. -/
abbrev MoveResult := Host.Outcome (Session × Response) Fault Refusal

/-- One move of R290. -/
def transition (e : Event) (x : Session) : MoveResult :=
  match e with
  | .reset => .next ({ core := x.core.hostReset, loadOpen := true }, .none)
  | .loadProgram bytes =>
    if x.loadOpen then
      match x.core.loadProgram bytes with
      | some s => .next ({ core := s, loadOpen := false }, .loaded)
      | Option.none => .next ({ x with loadOpen := false }, .invalidProgramSize bytes.length)
    else .refused .loadProgramClosed
  | .step =>
    match Sys2Proof.Machine.step x.core with
    | .next s => .next ({ core := s, loadOpen := false }, .none)
    | .fault f => .fault f
    | .refused r => .refused r
  | .tickTimers => .next ({ x with core := x.core.tickTimers }, .none)
  | .setKeyDown k => .next ({ x with core := x.core.setKeyDown k }, .none)
  | .setKeyUp k => .next ({ x with core := x.core.setKeyUp k }, .none)
  | .consumeFrame =>
    let (frame, s) := x.core.consumeFrame
    .next ({ x with core := s }, .frame frame.1 frame.2)

/-- A run: any finite list of moves, in any interleaving (R337). -/
def runEvents : List Event → Session → Host.Outcome Session Fault Refusal
  | [], x => .next x
  | e :: es, x =>
    match transition e x with
    | .next (y, _) => runEvents es y
    | .fault f => .fault f
    | .refused r => .refused r

/-- The events that a move from `s` to `t` emitted (R258). -/
def emitted (s t : State) : List OutEvent := t.events.drop s.events.length

end Sys2Proof.Machine
end

