-- ==== Sys2Proof/Safety.lean ====
section
/-! DEFINITION. The terms that claims use: the invariant of the core, what a move leaves unchanged, who writes what
(10_state.md R38), and what counts as a run without error (60_exceptions.md R273; 93_implementation_defined.md I4). -/

namespace Sys2Proof.Machine

/-- What the error record of a halted core can hold (R271, R274). -/
def ErrorRecord.legal (r : ErrorRecord) : Prop :=
  match r.kind with
  | .stackOverflow => r.word.isSome ∧ r.detail = none
  | .stackUnderflow => r.word.isSome ∧ r.detail = none
  | .memoryBounds => ∃ a, r.detail = some a ∧ memSize ≤ a
  | .protectedWrite => r.word.isSome ∧ ∃ a, r.detail = some a ∧ a < fontSize
  | .keyIndexRange => r.word.isSome ∧ ∃ k, r.detail = some k ∧ 0xF < k ∧ k ≤ 0xFF

/-- The invariant of the core: what every state that a run reaches satisfies. -/
structure State.Inv (s : State) : Prop where
  /-- memory is in its canonical form -/
  mem : Memory.wf s.cfg.font s.mem
  /-- the stack is bounded (R24) -/
  depth : s.stack.length ≤ s.cfg.stackDepth
  /-- a return address is one that a fetch leaves in PC (R74) -/
  returns : ∀ a ∈ s.stack, a.toNat ≤ 0x1000
  /-- PC never needs a wrap (R74) -/
  pc : s.pc.toNat ≤ 0x10FE
  /-- every report is of a word that is no instruction, fetched inside the memory (R33, R77) -/
  diag : ∀ r ∈ s.diag, decodeWord r.word = none ∧ r.at_.toNat + 1 < memSize
  /-- the error record of a halted core (R274) -/
  record : ∀ r, s.mode = .halted r → r.legal

/-- The elements of `State`. -/
inductive Part where
  | v | i | pc | stack | dt | st | mem | display | dirty | keys | mode | diag | cfg | draws | events
  deriving DecidableEq, Repr

/-- The element is the same in `s` and `t`; for memory, every byte reads the same. -/
def Part.same : Part → State → State → Prop
  | .v, s, t => ∀ r, t.reg r = s.reg r
  | .i, s, t => t.i = s.i
  | .pc, s, t => t.pc = s.pc
  | .stack, s, t => t.stack = s.stack
  | .dt, s, t => t.dt = s.dt
  | .st, s, t => t.st = s.st
  | .mem, s, t => ∀ a, t.byte a = s.byte a
  | .display, s, t => t.display = s.display
  | .dirty, s, t => t.dirty = s.dirty
  | .keys, s, t => t.keys = s.keys
  | .mode, s, t => t.mode = s.mode
  | .diag, s, t => t.diag = s.diag
  | .cfg, s, t => t.cfg = s.cfg
  | .draws, s, t => t.draws = s.draws
  | .events, s, t => t.events = s.events

/-- From `s` to `t` nothing changes but the listed elements. -/
def ChangesOnly (ps : List Part) (s t : State) : Prop := ∀ p, p ∉ ps → p.same s t

/-- From `s` to `t` no register changes but the listed ones. -/
def RegsKept (rs : List Reg) (s t : State) : Prop := ∀ r, r ∉ rs → t.reg r = s.reg r

/-- From `s` to `t` no byte changes but the `n` bytes from `a` up. -/
def BytesKept (a n : Nat) (s t : State) : Prop := ∀ b, b < a ∨ a + n ≤ b → t.byte b = s.byte b

/-- The `n` bytes from `a` up can be read: Dxyn, Fx65 (R55). With `n = 0` there is no address to check (R105). -/
abbrev Readable (a n : Nat) : Prop := n = 0 ∨ a + n ≤ memSize

/-- The `n` bytes from `a` up can be stored to: Fx33, Fx55 (R56). -/
abbrev Writable (p : Params) (a n : Nat) : Prop := a + n ≤ memSize ∧ (p.fontPolicy = .write ∨ fontSize ≤ a)

/-- The font region still holds FONT_BYTES (R53, R54). -/
def State.FontIntact (s : State) : Prop := ∀ a, a < fontSize → s.byte a = resetByte s.cfg.font a

/-- A state without error: not halted (R273) and nothing reported (93_implementation_defined.md I4). -/
def State.Clean (s : State) : Prop := s.isHalted = false ∧ s.diag = []

end Sys2Proof.Machine

namespace Sys2Proof

open Machine

/-- R38: the elements an instruction may write. `mode` stands with the instructions that can raise a fatal error and
with Fx0A; `events` and `draws` are the model's own (log 6, log 7). -/
def Instr.writes : Instr → List Part
  | .cls => [.display, .dirty]
  | .ret => [.pc, .stack, .mode]
  | .jp _ => [.pc]
  | .call _ => [.pc, .stack, .mode]
  | .seImm _ _ => [.pc]
  | .sneImm _ _ => [.pc]
  | .seReg _ _ => [.pc]
  | .ldImm _ _ => [.v]
  | .addImm _ _ => [.v]
  | .ldReg _ _ => [.v]
  | .orReg _ _ => [.v]
  | .andReg _ _ => [.v]
  | .xorReg _ _ => [.v]
  | .addReg _ _ => [.v]
  | .sub _ _ => [.v]
  | .shr _ _ => [.v]
  | .subn _ _ => [.v]
  | .shl _ _ => [.v]
  | .sneReg _ _ => [.pc]
  | .ldI _ => [.i]
  | .jpV0 _ => [.pc]
  | .rnd _ _ => [.v, .draws]
  | .drw _ _ _ => [.v, .display, .dirty, .mode]
  | .skp _ => [.pc, .mode]
  | .sknp _ => [.pc, .mode]
  | .ldVxDt _ => [.v]
  | .ldVxK _ => [.mode]
  | .ldDtVx _ => [.dt]
  | .ldStVx _ => [.st, .events]
  | .addI _ => [.i, .v]
  | .ldF _ => [.i]
  | .ldB _ => [.mem, .mode]
  | .storeRegs _ => [.mem, .mode]
  | .loadRegs _ => [.v, .mode]

/-- R38: the registers an instruction may write, its destinations and VF where it writes VF as a flag (R21). -/
def Instr.writesRegs : Instr → List Reg
  | .cls => []
  | .ret => []
  | .jp _ => []
  | .call _ => []
  | .seImm _ _ => []
  | .sneImm _ _ => []
  | .seReg _ _ => []
  | .ldImm x _ => [x]
  | .addImm x _ => [x]
  | .ldReg x _ => [x]
  | .orReg x _ => [x]
  | .andReg x _ => [x]
  | .xorReg x _ => [x]
  | .addReg x _ => [x, VF]
  | .sub x _ => [x, VF]
  | .shr x _ => [x, VF]
  | .subn x _ => [x, VF]
  | .shl x _ => [x, VF]
  | .sneReg _ _ => []
  | .ldI _ => []
  | .jpV0 _ => []
  | .rnd x _ => [x]
  | .drw _ _ _ => [VF]
  | .skp _ => []
  | .sknp _ => []
  | .ldVxDt x => [x]
  | .ldVxK _ => []
  | .ldDtVx _ => []
  | .ldStVx _ => []
  | .addI _ => [VF]
  | .ldF _ => []
  | .ldB _ => []
  | .storeRegs _ => []
  | .loadRegs x => (List.range (x.val + 1)).map (Fin.ofNat 16)

end Sys2Proof
end

