-- ==== Sys2Proof/Certificates/Slice0/Obligations.lean ====
section
/-! DEFINITION. The statements for the provers. "R<n>" is a rule of spec/, "D<n>" a decision that the spec marks as its
own choice, "log <n>" an entry of the assumption log. A statement that rests on a decision says so. In a statement about
`exec`, `s` is the state after the fetch, so `s.pc` is the address of the instruction plus 2 (00_scope.md R11). -/

open Sys2Proof Sys2Proof.Machine

/-! ### Encoding and decoding -/

/-- Decoding the two bytes of an encoded instruction gives the instruction back, with every operand at every value,
and the bytes after it are left over (30_encoding.md section 2, 20_memory.md section 5). -/
def Obligations.DecodeOfEncodeIsTheInstruction : Prop :=
  ∀ (i : Instr) (rest : List Byte),
    decodeWord (encode i) = some i ∧
    decode (highByte (encode i) :: lowByte (encode i) :: rest) = .ok (i, rest)

/-- Encoding what a word decodes to gives the word back: no bit of an instruction is dropped, the ignored field `y` of
8xy6 and 8xyE included, so the word in an error record is the fetched word (log 15, log 17). -/
def Obligations.EncodeOfDecodedWordIsTheWord : Prop :=
  ∀ (w : Word) (i : Instr), decodeWord w = some i → encode i = w

/-- R75: decode gives the single row of the opcode table with `(w AND mask) = match`, and none when no row matches. -/
def Obligations.DecodeAgreesWithTheOpcodeTable : Prop :=
  ∀ w : Word,
    (∀ i, decodeWord w = some i →
      i.row ∈ opcodeRows ∧ i.row.admits w = true ∧ ∀ r ∈ opcodeRows, r.admits w = true → r = i.row) ∧
    (decodeWord w = none → ∀ r ∈ opcodeRows, r.admits w = false)

/-- Words written out from the rows of 30_encoding.md R76 and R83, at least one for each family, decode to what they
stand for; words outside the table decode to nothing (R78). That 0x5121, 0x8008, 0x0000 and 0xF0FF are outside the table
rests on exact-mask decoding, the spec's own choice (D15; log 13). -/
def Obligations.WrittenOutWordsDecode : Prop :=
  decodeWord 0x00E0 = some .cls ∧ decodeWord 0x00EE = some .ret ∧ decodeWord 0x2210 = some (.call 0x210) ∧
  decodeWord 0x4311 = some (.sneImm 3 0x11) ∧ decodeWord 0x9120 = some (.sneReg 1 2) ∧
  decodeWord 0x8125 = some (.sub 1 2) ∧ decodeWord 0xC30F = some (.rnd 3 0x0F) ∧
  decodeWord 0xD015 = some (.drw 0 1 5) ∧ decodeWord 0xE5A1 = some (.sknp 5) ∧
  decodeWord 0xF21E = some (.addI 2) ∧ decodeWord 0xF218 = some (.ldStVx 2) ∧
  decodeWord 0x0000 = none ∧ decodeWord 0x5121 = none ∧ decodeWord 0x8008 = none ∧ decodeWord 0xF0FF = none

/-! ### The step -/

/-- When the bytes at PC decode to an instruction, the step is that instruction after the advance of PC by 2
(30_encoding.md section 3). -/
def Obligations.StepRunsTheDecodedInstruction : Prop :=
  ∀ (s : State) (i : Instr), s.mode = .running → s.pc.toNat + 1 < 4096 →
    decodeWord (wordOfBytes (s.byte s.pc.toNat) (s.byte (s.pc.toNat + 1))) = some i →
    step s = exec i { s with pc := s.pc + 2 }

/-- A word that is no instruction is reported in `diag` and execution goes on at the next word. That the channel is a
log is the spec's own choice (D30). -/
def Obligations.UnknownWordIsReportedAndSkipped : Prop :=
  ∀ s : State, s.mode = .running → s.pc.toNat + 1 < 4096 →
    decodeWord (wordOfBytes (s.byte s.pc.toNat) (s.byte (s.pc.toNat + 1))) = none →
    ∃ t, step s = .next t ∧ t.pc = s.pc + 2 ∧
      t.diag = s.diag ++ [⟨s.pc, wordOfBytes (s.byte s.pc.toNat) (s.byte (s.pc.toNat + 1))⟩] ∧
      ChangesOnly [.pc, .diag] s t

/-- A fetch of which a byte lies above 0xFFF halts with MemoryBounds at that byte, PC unchanged and no word recorded.
That the outcome is this error is the spec's own choice (D5, D16). -/
def Obligations.FetchOutsideMemoryHalts : Prop :=
  ∀ s : State, s.mode = .running → 4096 ≤ s.pc.toNat + 1 →
    ∃ t, step s = .next t ∧
      t.mode = .halted { kind := .memoryBounds, at_ := s.pc, word := none, detail := some (max s.pc.toNat 4096) } ∧
      ChangesOnly [.mode] s t

/-- In AwaitingKey any number of steps changes nothing; of the other moves only `setKeyDown` and reset end the wait
(45_keypad.md section 2). That a `setKeyDown` of a key already down ends it too is the spec's own choice (D22; log 13). That
a step in the wait is a next state with nothing changed, and not the absence of a step, is the model's choice between the
two forms the spec allows (log 2). -/
def Obligations.KeyWaitHoldsUntilKeyDown : Prop :=
  ∀ (s : State) (x : Reg), s.mode = .awaitingKey x →
    (∀ n, Host.Core.run Sys2Proof.core n s = .next s) ∧
    (∀ k, (s.setKeyUp k).mode = .awaitingKey x) ∧ s.tickTimers.mode = .awaitingKey x ∧
    s.consumeFrame.2.mode = .awaitingKey x ∧ (∀ bytes t, s.loadProgram bytes = some t → t.mode = .awaitingKey x) ∧
    (∀ k, (s.setKeyDown k).mode = .running) ∧ s.hostReset.mode = .running

/-- Once halted, no run without a reset (and without a program load) leaves Halted or changes anything but the timers,
the sound events, the keys and the dirty flag. What the host's moves do in Halted is the spec's own choice (D17). -/
def Obligations.HaltedUntilReset : Prop :=
  ∀ (es : List Event) (x y : Session) (r : ErrorRecord), x.core.mode = .halted r →
    (∀ e ∈ es, e ≠ .reset ∧ ∀ bytes, e ≠ .loadProgram bytes) → runEvents es x = .next y →
    y.core.mode = .halted r ∧ ChangesOnly [.dt, .st, .events, .keys, .dirty] x.core y.core

/-- R31: the only moves that change the mode, and how. -/
def Obligations.ModeChangesOnlyAsListed : Prop :=
  ∀ (e : Event) (x y : Session) (rsp : Response), transition e x = .next (y, rsp) → y.core.mode ≠ x.core.mode →
    (e = .reset ∧ y.core.mode = .running) ∨
    (∃ k q, e = .setKeyDown k ∧ x.core.mode = .awaitingKey q ∧ y.core.mode = .running) ∨
    (e = .step ∧ x.core.mode = .running ∧
      ((∃ q, decodeWord (x.core.wordAt x.core.pc.toNat) = some (.ldVxK q) ∧ y.core.mode = .awaitingKey q) ∨
        ∃ r, y.core.mode = .halted r))

/-- Every state has a next state under `step`. Every move has one, but for a `loadProgram` while the window for it is
closed, which is refused. Reset opens the window, a step and a `loadProgram` close it, and no other move touches it
(70_reset_and_hazards.md section 2). That a load at another time is no move is the spec's own choice (D21); the bit that
holds the window, and that a load which the size check turns away closes it, are the model's (log 11). -/
def Obligations.EveryMoveHasANextState : Prop :=
  (∀ s : State, ∃ t, step s = .next t) ∧
  (∀ (bytes : List Byte) (x : Session), x.loadOpen = false →
    transition (.loadProgram bytes) x = .refused .loadProgramClosed) ∧
  ∀ (e : Event) (x : Session), (x.loadOpen = true ∨ ∀ bytes, e ≠ .loadProgram bytes) →
    ∃ y rsp, transition e x = .next (y, rsp) ∧
      (e = .reset → y.loadOpen = true) ∧
      (e = .step ∨ (∃ bytes, e = .loadProgram bytes) → y.loadOpen = false) ∧
      (e ≠ .reset → e ≠ .step → (∀ bytes, e ≠ .loadProgram bytes) → y.loadOpen = x.loadOpen)

/-! ### Reset and program load -/

/-- The state after reset, element by element (10_state.md section 13). The stack, memory from 0x050 up, the display,
dirty, the keys, mode and diag are the spec's own choice (D8). `State.reset` is that state with a STACK_DEPTH of at least
8 and no value fixed (D3; log 4) and with the defaults of the other parameters: ALIAS_ORDER = snapshot (D2), FX1E_SETS_VF
= true (D11), FONT_WRITE_POLICY = fault (D6), and for FONT_BYTES the table of 20_memory.md section 3, written out here
(D9; log 5). `hostReset` gives the same state in any state, with its parameters kept, and emits no event (D18; log 6,
log 7). -/
def Obligations.ResetState : Prop :=
  (∀ p : Params,
    (∀ r, (State.resetWith p).reg r = 0) ∧ (State.resetWith p).i = 0 ∧ (State.resetWith p).pc = 0x200 ∧
    (State.resetWith p).stack = [] ∧ (State.resetWith p).dt = 0 ∧ (State.resetWith p).st = 0 ∧
    (∀ d k : Nat, (hd : d < 16) → (hk : k < 5) → (State.resetWith p).byte (5 * d + k) = (p.font[d])[k]) ∧
    (∀ a, 0x050 ≤ a → (State.resetWith p).byte a = 0) ∧
    (∀ X Y, (State.resetWith p).display.pixel X Y = false) ∧ (State.resetWith p).dirty = false ∧
    (∀ k : Key, (State.resetWith p).keys[k.val] = false) ∧ (State.resetWith p).mode = .running ∧
    (State.resetWith p).diag = [] ∧ (State.resetWith p).cfg = p) ∧
  (State.reset = State.resetWith State.reset.cfg ∧ 8 ≤ State.reset.cfg.stackDepth ∧
    State.reset.cfg.aliasOrder = .snapshot ∧ State.reset.cfg.fx1eSetsVF = true ∧
    State.reset.cfg.fontPolicy = .fault ∧
    (List.range 80).map State.reset.byte =
      [0xF0, 0x90, 0x90, 0x90, 0xF0, 0x20, 0x60, 0x20, 0x20, 0x70, 0xF0, 0x10, 0xF0, 0x80, 0xF0,
       0xF0, 0x10, 0xF0, 0x10, 0xF0, 0x90, 0x90, 0xF0, 0x10, 0x10, 0xF0, 0x80, 0xF0, 0x10, 0xF0] ++
      [0xF0, 0x80, 0xF0, 0x90, 0xF0, 0xF0, 0x10, 0x20, 0x40, 0x40, 0xF0, 0x90, 0xF0, 0x90, 0xF0,
       0xF0, 0x90, 0xF0, 0x10, 0xF0, 0xF0, 0x90, 0xF0, 0x90, 0x90, 0xE0, 0x90, 0xE0, 0x90, 0xE0] ++
      [0xF0, 0x80, 0x80, 0x80, 0xF0, 0xE0, 0x90, 0x90, 0x90, 0xE0, 0xF0, 0x80, 0xF0, 0x80, 0xF0,
       0xF0, 0x80, 0xF0, 0x80, 0x80]) ∧
  ∀ s : State, ChangesOnly [.draws, .events] (State.resetWith s.cfg) s.hostReset ∧ s.hostReset.events = s.events

/-- After reset and the load of a program, PC is 0x200, the mode is Running with every key up, and the first step runs
the instruction at 0x200 and 0x201 (70_reset_and_hazards.md, rule of the entry point). That the mode is Running and
the keys are up after reset is the spec's own choice (D8). -/
def Obligations.FirstStepRunsTheWordAt0x200 : Prop :=
  ∀ (p : Params) (hi lo : Byte) (rest : List Byte) (s : State) (i : Instr),
    (State.resetWith p).loadProgram (hi :: lo :: rest) = some s → decodeWord (wordOfBytes hi lo) = some i →
    s.pc = 0x200 ∧ s.mode = .running ∧ (∀ k : Key, s.keys[k.val] = false) ∧
    step s = exec i { s with pc := 0x202 }

/-- `loadProgram` copies an image of at most 3584 bytes to 0x200 and up and changes nothing else; a longer one is answered
with InvalidProgramSize and its length, the core unchanged. That the core checks the size is the spec's own choice (D21);
that either call uses up the one load a reset allows is the model's (log 11). -/
def Obligations.LoadProgramCopiesTheImage : Prop :=
  ∀ (s : State) (bytes : List Byte), Memory.wf s.cfg.font s.mem →
    (bytes.length ≤ 3584 → ∃ t,
      transition (.loadProgram bytes) ⟨s, true⟩ = .next (⟨t, false⟩, .loaded) ∧ s.loadProgram bytes = some t ∧
      (∀ k, (h : k < bytes.length) → t.byte (0x200 + k) = bytes[k]) ∧
      BytesKept 0x200 bytes.length s t ∧ ChangesOnly [.mem] s t) ∧
    (3584 < bytes.length →
      transition (.loadProgram bytes) ⟨s, true⟩ = .next (⟨s, false⟩, .invalidProgramSize bytes.length) ∧
      s.loadProgram bytes = none)

/-- The word that `withFetchWord` places is what the very next step runs (the model's own; log 18). -/
def Obligations.PlacedWordIsRunNext : Prop :=
  ∀ (s : State) (w : Nat) (i : Instr), Memory.wf s.cfg.font s.mem → decodeTableWord 16 w = some i →
    step (s.withFetchWord 16 w) = exec i (s.withFetchWord 16 w).skip

/-! ### Display -/

/-- R104: 00E0 turns every pixel off and sets dirty; VF and everything else keep their value. -/
def Obligations.ClsBlanksTheDisplay : Prop :=
  ∀ s : State, ∃ t, exec .cls s = .next t ∧ (∀ X Y, t.display.pixel X Y = false) ∧ t.dirty = true ∧
    ChangesOnly [.display, .dirty] s t

/-- Dxyn: a pixel changes exactly where a set bit of the sprite falls on it, VF tells whether a pixel went from on to
off, dirty is set (40_display.md sections 1 and 2). That the most significant bit is leftmost and that dirty is set by
every draw are the spec's own choices (D10, D19; log 14). -/
def Obligations.DrwXorsTheSprite : Prop :=
  ∀ (x y : Reg) (n : Fin 16) (s : State), Readable s.i.toNat n.val →
    ∃ t, exec (.drw x y n) s = .next t ∧
      (∀ X Y, t.display.pixel X Y ≠ s.display.pixel X Y ↔
        ∃ r b, r < n.val ∧ b < 8 ∧ X.val = ((s.reg x).toNat + b) % 64 ∧ Y.val = ((s.reg y).toNat + r) % 32 ∧
          (s.byte (s.i.toNat + r)).getLsbD (7 - b) = true) ∧
      (t.reg VF = 1 ↔ ∃ X Y, s.display.pixel X Y = true ∧ t.display.pixel X Y = false) ∧
      (t.reg VF = 0 ∨ t.reg VF = 1) ∧ t.dirty = true ∧
      RegsKept [VF] s t ∧ ChangesOnly [.v, .display, .dirty] s t

/-- Drawing the same sprite at the same coordinates twice restores the display, and the second draw collides exactly
when a set bit of the sprite falls on a pixel that was off before the first (40_display.md section 2, corner cases,
which the spec derives; 90_conflicts.md C5). -/
def Obligations.DrawingTwiceRestoresTheDisplay : Prop :=
  ∀ (x y : Reg) (n : Fin 16) (s t u : State), Readable s.i.toNat n.val →
    exec (.drw x y n) s = .next t → t.reg x = s.reg x → t.reg y = s.reg y → exec (.drw x y n) t = .next u →
    u.display = s.display ∧
    (u.reg VF = 1 ↔ ∃ X Y, s.display.pixel X Y = false ∧ t.display.pixel X Y = true)

/-- `consumeFrame` returns every pixel, row by row, with the dirty flag, and clears the flag only. The layout is the
spec's own choice (D27). -/
def Obligations.ConsumeFrameReturnsTheGrid : Prop :=
  ∀ (s : State),
    (∀ X Y k : Nat, (hX : X < 64) → (hY : Y < 32) → (hk : k < 32 * 64) → k = 64 * Y + X →
      s.consumeFrame.1.1[k] = s.display.pixel ⟨X, hX⟩ ⟨Y, hY⟩) ∧
    s.consumeFrame.1.2 = s.dirty ∧ s.consumeFrame.2.dirty = false ∧ ChangesOnly [.dirty] s s.consumeFrame.2

/-! ### Jumps, calls, returns -/

/-- 00EE pops the return address into PC; on an empty stack it halts with StackUnderflow and changes nothing else
(41_flow.md, rule of 00EE). What the error record holds and that PC keeps its advance is the spec's own choice (D16). -/
def Obligations.RetPopsTheReturnAddress : Prop :=
  ∀ s : State,
    (∀ below top, s.stack = below ++ [top] → ∃ t, exec .ret s = .next t ∧ t.pc = top ∧ t.stack = below ∧
      ChangesOnly [.pc, .stack] s t) ∧
    (s.stack = [] → ∃ t, exec .ret s = .next t ∧
      t.mode = .halted ⟨.stackUnderflow, s.pc - 2, some (encode .ret), none⟩ ∧ ChangesOnly [.mode] s t)

/-- 2nnn pushes the address after the call and jumps; on a full stack it halts with StackOverflow and changes nothing
else (41_flow.md, rule of 2nnn). What the error record holds and that PC keeps its advance is the spec's own choice
(D16), and so is the capacity, any number from 8 up (D3; log 4). -/
def Obligations.CallPushesTheReturnAddress : Prop :=
  ∀ (nnn : Addr12) (s : State),
    (s.stack.length ≠ s.cfg.stackDepth → ∃ t, exec (.call nnn) s = .next t ∧ t.stack = s.stack ++ [s.pc] ∧
      t.pc.toNat = nnn.toNat ∧ ChangesOnly [.pc, .stack] s t) ∧
    (s.stack.length = s.cfg.stackDepth → ∃ t, exec (.call nnn) s = .next t ∧
      t.mode = .halted ⟨.stackOverflow, s.pc - 2, some (encode (.call nnn)), none⟩ ∧ ChangesOnly [.mode] s t)

/-- A return right after a call resumes after the call with nothing changed (41_flow.md, corner case of 00EE, which the
spec derives). -/
def Obligations.ReturnUndoesCall : Prop :=
  ∀ (nnn : Addr12) (s : State), s.stack.length ≠ s.cfg.stackDepth →
    ∃ t u, exec (.call nnn) s = .next t ∧ exec .ret t = .next u ∧ ChangesOnly [] s u

/-- R121: 1nnn sets PC to nnn and changes nothing else. -/
def Obligations.JpSetsPc : Prop :=
  ∀ (nnn : Addr12) (s : State), ∃ t, exec (.jp nnn) s = .next t ∧ t.pc.toNat = nnn.toNat ∧ ChangesOnly [.pc] s t

/-- Bnnn sets PC to the exact sum of nnn and V0. That the sum is not reduced to 12 bits is the spec's own choice (D24). -/
def Obligations.JpV0AddsV0 : Prop :=
  ∀ (nnn : Addr12) (s : State), ∃ t, exec (.jpV0 nnn) s = .next t ∧
    t.pc.toNat = nnn.toNat + (s.reg 0).toNat ∧ ChangesOnly [.pc] s t

/-- A word `1nnn` at the address nnn is an idle end: a step leaves the state as it is (70_reset_and_hazards.md section 5,
a definition of the spec's own, D32). -/
def Obligations.IdleLoopChangesNothing : Prop :=
  ∀ (s : State) (nnn : Addr12), s.mode = .running → s.pc.toNat + 1 < 4096 → s.pc.toNat = nnn.toNat →
    decodeWord (wordOfBytes (s.byte s.pc.toNat) (s.byte (s.pc.toNat + 1))) = some (.jp nnn) → step s = .next s

/-! ### Skips on registers -/

/-- R141 to R144: the four skips on registers; PC moves on by 2 exactly when the comparison holds, nothing else changes. -/
def Obligations.RegisterSkips : Prop :=
  ∀ (x y : Reg) (nn : Byte) (s : State),
    (∃ t, exec (.seImm x nn) s = .next t ∧ t.pc = (if s.reg x = nn then s.pc + 2 else s.pc) ∧ ChangesOnly [.pc] s t) ∧
    (∃ t, exec (.sneImm x nn) s = .next t ∧ t.pc = (if s.reg x ≠ nn then s.pc + 2 else s.pc) ∧ ChangesOnly [.pc] s t) ∧
    (∃ t, exec (.seReg x y) s = .next t ∧ t.pc = (if s.reg x = s.reg y then s.pc + 2 else s.pc) ∧
      ChangesOnly [.pc] s t) ∧
    (∃ t, exec (.sneReg x y) s = .next t ∧ t.pc = (if s.reg x ≠ s.reg y then s.pc + 2 else s.pc) ∧
      ChangesOnly [.pc] s t)

/-! ### Loads, arithmetic, logic, random -/

/-- R162 to R167: the loads, the add without flag, and the logic. The destination gets the value of the rule, every
other register keeps its value (so VF is no flag here), and nothing else changes. -/
def Obligations.LoadsAndLogic : Prop :=
  ∀ (x y : Reg) (nn : Byte) (s : State),
    (∃ t, exec (.ldImm x nn) s = .next t ∧ t.reg x = nn ∧ RegsKept [x] s t ∧ ChangesOnly [.v] s t) ∧
    (∃ t, exec (.addImm x nn) s = .next t ∧ (t.reg x).toNat = ((s.reg x).toNat + nn.toNat) % 256 ∧
      RegsKept [x] s t ∧ ChangesOnly [.v] s t) ∧
    (∃ t, exec (.ldReg x y) s = .next t ∧ t.reg x = s.reg y ∧ RegsKept [x] s t ∧ ChangesOnly [.v] s t) ∧
    (∃ t, exec (.orReg x y) s = .next t ∧
      (∀ b, (t.reg x).getLsbD b = ((s.reg x).getLsbD b || (s.reg y).getLsbD b)) ∧
      RegsKept [x] s t ∧ ChangesOnly [.v] s t) ∧
    (∃ t, exec (.andReg x y) s = .next t ∧
      (∀ b, (t.reg x).getLsbD b = ((s.reg x).getLsbD b && (s.reg y).getLsbD b)) ∧
      RegsKept [x] s t ∧ ChangesOnly [.v] s t) ∧
    (∃ t, exec (.xorReg x y) s = .next t ∧
      (∀ b, (t.reg x).getLsbD b = ((s.reg x).getLsbD b ^^ (s.reg y).getLsbD b)) ∧
      RegsKept [x] s t ∧ ChangesOnly [.v] s t)

/-- R168: 8xy4 writes the sum modulo 256 to Vx and the carry to VF; with x = F the sum overwrites the carry. -/
def Obligations.AddWritesSumAndCarry : Prop :=
  ∀ (x y : Reg) (s : State), ∃ t, exec (.addReg x y) s = .next t ∧
    (t.reg x).toNat = ((s.reg x).toNat + (s.reg y).toNat) % 256 ∧
    (x ≠ VF → t.reg VF = if (s.reg x).toNat + (s.reg y).toNat > 255 then 1 else 0) ∧
    RegsKept [x, VF] s t ∧ ChangesOnly [.v] s t

/-- R169: 8xy5 under either ALIAS_ORDER. `g` is the no-borrow flag, `a` and `b` the values the subtraction reads: under
`sequential` a source that is VF reads the flag. With x = F the difference overwrites the flag. -/
def Obligations.SubUnderEitherAliasOrder : Prop :=
  ∀ (x y : Reg) (s : State), ∃ t g a b, exec (.sub x y) s = .next t ∧
    g = (if (s.reg x).toNat ≥ (s.reg y).toNat then 1 else 0) ∧
    a = (if s.cfg.aliasOrder = .sequential ∧ x = VF then g else (s.reg x).toNat) ∧
    b = (if s.cfg.aliasOrder = .sequential ∧ y = VF then g else (s.reg y).toNat) ∧
    (t.reg x).toNat = (a + 256 - b) % 256 ∧ (x ≠ VF → (t.reg VF).toNat = g) ∧
    RegsKept [x, VF] s t ∧ ChangesOnly [.v] s t

/-- R171: 8xy7 under either ALIAS_ORDER, as R169 with the operands exchanged. -/
def Obligations.SubnUnderEitherAliasOrder : Prop :=
  ∀ (x y : Reg) (s : State), ∃ t g a b, exec (.subn x y) s = .next t ∧
    g = (if (s.reg y).toNat ≥ (s.reg x).toNat then 1 else 0) ∧
    a = (if s.cfg.aliasOrder = .sequential ∧ x = VF then g else (s.reg x).toNat) ∧
    b = (if s.cfg.aliasOrder = .sequential ∧ y = VF then g else (s.reg y).toNat) ∧
    (t.reg x).toNat = (b + 256 - a) % 256 ∧ (x ≠ VF → (t.reg VF).toNat = g) ∧
    RegsKept [x, VF] s t ∧ ChangesOnly [.v] s t

/-- R170: 8xy6 shifts Vx right by one under either ALIAS_ORDER, VF gets the bit shifted out, and y has no effect. With
x = F the result overwrites the flag, and is 0 under `sequential`. -/
def Obligations.ShrUnderEitherAliasOrder : Prop :=
  ∀ (x y : Reg) (s : State), ∃ t a, exec (.shr x y) s = .next t ∧
    a = (if s.cfg.aliasOrder = .sequential ∧ x = VF then (s.reg x).toNat % 2 else (s.reg x).toNat) ∧
    (t.reg x).toNat = a / 2 ∧ (x ≠ VF → (t.reg VF).toNat = (s.reg x).toNat % 2) ∧
    RegsKept [x, VF] s t ∧ ChangesOnly [.v] s t

/-- R172: 8xyE shifts Vx left by one under either ALIAS_ORDER, VF gets the bit shifted out, and y has no effect. With
x = F the result overwrites the flag, and is twice the bit shifted out under `sequential`. -/
def Obligations.ShlUnderEitherAliasOrder : Prop :=
  ∀ (x y : Reg) (s : State), ∃ t a, exec (.shl x y) s = .next t ∧
    a = (if s.cfg.aliasOrder = .sequential ∧ x = VF then (s.reg x).toNat / 128 else (s.reg x).toNat) ∧
    (t.reg x).toNat = 2 * a % 256 ∧ (x ≠ VF → (t.reg VF).toNat = (s.reg x).toNat / 128) ∧
    RegsKept [x, VF] s t ∧ ChangesOnly [.v] s t

/-- Cxnn masks one fresh draw, whatever its value: the draw is the free value `Config.rand8`, of which nothing is known
(43_alu.md section 5; the draw without a law is the spec's own choice, D28; log 6). -/
def Obligations.RndMasksOneDraw : Prop :=
  ∀ (x : Reg) (nn : Byte) (s : State), ∃ t, exec (.rnd x nn) s = .next t ∧
    (∀ b, (t.reg x).getLsbD b = (nn.getLsbD b && (Config.rand8 s.draws).getLsbD b)) ∧ t.draws = s.draws + 1 ∧
    RegsKept [x] s t ∧ ChangesOnly [.v, .draws] s t

/-! ### Index register and memory transfer -/

/-- R200: Annn sets I to nnn and changes nothing else. -/
def Obligations.LdISetsIndex : Prop :=
  ∀ (nnn : Addr12) (s : State), ∃ t, exec (.ldI nnn) s = .next t ∧ t.i.toNat = nnn.toNat ∧ ChangesOnly [.i] s t

/-- Fx1E adds Vx to I modulo 0x10000; VF tells whether the exact sum exceeds 0xFFF when FX1E_SETS_VF holds, and keeps
its value otherwise. The width of I and the parameter are the spec's own choices (D11). -/
def Obligations.AddIndexWithFlag : Prop :=
  ∀ (x : Reg) (s : State), ∃ t, exec (.addI x) s = .next t ∧
    t.i.toNat = (s.i.toNat + (s.reg x).toNat) % 65536 ∧
    t.reg VF = (if s.cfg.fx1eSetsVF then (if s.i.toNat + (s.reg x).toNat > 0xFFF then 1 else 0) else s.reg VF) ∧
    RegsKept [VF] s t ∧ ChangesOnly [.i, .v] s t

/-- Fx29 sets I to five times Vx, not masked (44_index_memory.md; the literal formula for Vx > 0xF is the spec's own
choice, D12). While the font is intact and Vx is a digit, the five bytes at I are the glyph of that digit, for any
FONT_BYTES (20_memory.md section 3, which the spec derives). -/
def Obligations.LdFPointsAtTheGlyph : Prop :=
  ∀ (x : Reg) (s : State), ∃ t, exec (.ldF x) s = .next t ∧ t.i.toNat = 5 * (s.reg x).toNat ∧
    (s.FontIntact → ∀ (h : (s.reg x).toNat < 16) (k : Nat) (hk : k < 5),
      t.byte (t.i.toNat + k) = (s.cfg.font[(s.reg x).toNat])[k]) ∧
    ChangesOnly [.i] s t

/-- Fx33 stores the three decimal digits of Vx at I, I+1, I+2 and changes nothing else. When those addresses can be
stored to, by the spec's own choice (D4, D6). -/
def Obligations.BcdStoresThreeDigits : Prop :=
  ∀ (x : Reg) (s : State), Memory.wf s.cfg.font s.mem → Writable s.cfg (s.indexed 0) 3 →
    ∃ t, exec (.ldB x) s = .next t ∧
      (t.byte (s.indexed 0)).toNat = (s.reg x).toNat / 100 ∧
      (t.byte (s.indexed 0 + 1)).toNat = (s.reg x).toNat / 10 % 10 ∧
      (t.byte (s.indexed 0 + 2)).toNat = (s.reg x).toNat % 10 ∧
      BytesKept (s.indexed 0) 3 s t ∧ ChangesOnly [.mem] s t

/-- Fx55 stores V0 to Vx at I and up and changes nothing else; I keeps its value, by the spec's own choice (D13), and
the addresses that can be stored to are D4 and D6. -/
def Obligations.StoreRegsStoresV0ToVx : Prop :=
  ∀ (x : Reg) (s : State), Memory.wf s.cfg.font s.mem → Writable s.cfg (s.indexed 0) (x.val + 1) →
    ∃ t, exec (.storeRegs x) s = .next t ∧
      (∀ r : Reg, r ≤ x → t.byte (s.indexed 0 + r.val) = s.reg r) ∧
      BytesKept (s.indexed 0) (x.val + 1) s t ∧ ChangesOnly [.mem] s t

/-- Fx65 loads V0 to Vx from I and up and changes nothing else; I keeps its value, by the spec's own choice (D13), and
the addresses that can be read are D4. -/
def Obligations.LoadRegsLoadsV0ToVx : Prop :=
  ∀ (x : Reg) (s : State), Readable (s.indexed 0) (x.val + 1) →
    ∃ t, exec (.loadRegs x) s = .next t ∧
      (∀ r : Reg, r ≤ x → t.reg r = s.byte (s.indexed 0 + r.val)) ∧
      (∀ r : Reg, x < r → t.reg r = s.reg r) ∧ ChangesOnly [.v] s t

/-- Dxyn, Fx33, Fx55 and Fx65 on a range that leaves the memory halt with MemoryBounds at the first address above
0xFFF, and Fx33 and Fx55 on a range that begins in the protected font halt with ProtectedWrite at its first address;
nothing but the mode changes. These errors are the spec's own choice (D4, D6, D16). -/
def Obligations.BadAddressesHaltWithNothingWritten : Prop :=
  ∀ (i : Instr) (n : Nat) (s : State),
    ((∃ x y m, i = .drw x y m ∧ n = m.val) ∨ (∃ x : Reg, i = .loadRegs x ∧ n = x.val + 1) →
      ¬ Readable (s.indexed 0) n →
      ∃ t, exec i s = .next t ∧
        t.mode = .halted ⟨.memoryBounds, s.pc - 2, some (encode i), some (max (s.indexed 0) 4096)⟩ ∧
        ChangesOnly [.mode] s t) ∧
    ((∃ x, i = .ldB x ∧ n = 3) ∨ (∃ x : Reg, i = .storeRegs x ∧ n = x.val + 1) →
      (s.cfg.fontPolicy = .fault → s.indexed 0 < 80 →
        ∃ t, exec i s = .next t ∧
          t.mode = .halted ⟨.protectedWrite, s.pc - 2, some (encode i), some (s.indexed 0)⟩ ∧
          ChangesOnly [.mode] s t) ∧
      (s.cfg.fontPolicy = .write ∨ 80 ≤ s.indexed 0 → 4096 < s.indexed 0 + n →
        ∃ t, exec i s = .next t ∧
          t.mode = .halted ⟨.memoryBounds, s.pc - 2, some (encode i), some (max (s.indexed 0) 4096)⟩ ∧
          ChangesOnly [.mode] s t))

/-- The word stored by an Fx55 at the next two addresses is what the next step runs (20_memory.md section 6). The
bounds of the store are the spec's own choice (D4, D6). -/
def Obligations.StoredWordIsFetchedNext : Prop :=
  ∀ (s : State) (x : Reg) (i : Instr), Memory.wf s.cfg.font s.mem → s.mode = .running → s.pc.toNat + 3 < 4096 →
    decodeWord (wordOfBytes (s.byte s.pc.toNat) (s.byte (s.pc.toNat + 1))) = some (.storeRegs x) → 1 ≤ x.val →
    s.i = s.pc + 2 → Writable s.cfg s.i.toNat (x.val + 1) →
    decodeWord (wordOfBytes (s.reg 0) (s.reg 1)) = some i →
    ∃ t, step s = .next t ∧ step t = exec i { t with pc := s.pc + 4 }

/-! ### Keypad -/

/-- Ex9E and ExA1: with a key code in Vx the skip is taken when the key is down (Ex9E) or up (ExA1); with a larger Vx
they halt with KeyIndexRange. That error is the spec's own choice (D14, D16). -/
def Obligations.KeySkips : Prop :=
  ∀ (x : Reg) (s : State),
    (∀ h : (s.reg x).toNat < 16,
      (∃ t, exec (.skp x) s = .next t ∧ t.pc = (if s.keys[(s.reg x).toNat] = true then s.pc + 2 else s.pc) ∧
        ChangesOnly [.pc] s t) ∧
      (∃ t, exec (.sknp x) s = .next t ∧ t.pc = (if s.keys[(s.reg x).toNat] = false then s.pc + 2 else s.pc) ∧
        ChangesOnly [.pc] s t)) ∧
    (16 ≤ (s.reg x).toNat → ∀ i, i = .skp x ∨ i = .sknp x →
      ∃ t, exec i s = .next t ∧
        t.mode = .halted ⟨.keyIndexRange, s.pc - 2, some (encode i), some (s.reg x).toNat⟩ ∧ ChangesOnly [.mode] s t)

/-- R236: Fx0A suspends the core on Vx whatever keys are down, and changes nothing but the mode. -/
def Obligations.Fx0ASuspends : Prop :=
  ∀ (x : Reg) (s : State), ∃ t, exec (.ldVxK x) s = .next t ∧ t.mode = .awaitingKey x ∧ ChangesOnly [.mode] s t

/-- `setKeyDown` sets the key; in AwaitingKey(x) it also puts the code into Vx and resumes the core, in every other mode
it does nothing else. That a repeated key-down resolves the wait is the spec's own choice (D22). -/
def Obligations.SetKeyDownResolvesTheWait : Prop :=
  ∀ (s : State) (k : Key),
    (s.setKeyDown k).keys[k.val] = true ∧
    (∀ j : Key, j ≠ k → (s.setKeyDown k).keys[j.val] = s.keys[j.val]) ∧
    (∀ x, s.mode = .awaitingKey x → (s.setKeyDown k).mode = .running ∧ ((s.setKeyDown k).reg x).toNat = k.val ∧
      RegsKept [x] s (s.setKeyDown k) ∧ ChangesOnly [.v, .keys, .mode] s (s.setKeyDown k)) ∧
    ((∀ x, s.mode ≠ .awaitingKey x) → ChangesOnly [.keys] s (s.setKeyDown k))

/-- R232: `setKeyUp` releases the key in every mode and changes nothing else. -/
def Obligations.SetKeyUpReleasesTheKey : Prop :=
  ∀ (s : State) (k : Key), (s.setKeyUp k).keys[k.val] = false ∧
    (∀ j : Key, j ≠ k → (s.setKeyUp k).keys[j.val] = s.keys[j.val]) ∧ ChangesOnly [.keys] s (s.setKeyUp k)

/-! ### Timers and sound -/

/-- R253, R254: Fx07 reads the delay timer into Vx, Fx15 sets it from Vx; nothing else changes. -/
def Obligations.DelayTimerInstructions : Prop :=
  ∀ (x : Reg) (s : State),
    (∃ t, exec (.ldVxDt x) s = .next t ∧ t.reg x = s.dt ∧ RegsKept [x] s t ∧ ChangesOnly [.v] s t) ∧
    (∃ t, exec (.ldDtVx x) s = .next t ∧ t.dt = s.reg x ∧ ChangesOnly [.dt] s t)

/-- Fx18 sets the sound timer from Vx and emits SoundStopped exactly when that takes it from nonzero to 0. That the
event follows Fx18 too is the spec's own choice (D18; log 7). -/
def Obligations.Fx18SetsTheSoundTimer : Prop :=
  ∀ (x : Reg) (s : State), ∃ t, exec (.ldStVx x) s = .next t ∧ t.st = s.reg x ∧
    emitted s t = (if s.st ≠ 0 ∧ s.reg x = 0 then [.soundStopped] else []) ∧
    t.events = s.events ++ emitted s t ∧ ChangesOnly [.st, .events] s t

/-- R251: a tick takes 1 from each timer that is above 0, and emits SoundStopped when the sound timer reaches 0;
nothing else changes. -/
def Obligations.TickDecrementsTheTimers : Prop :=
  ∀ s : State, s.tickTimers.dt.toNat = s.dt.toNat - 1 ∧ s.tickTimers.st.toNat = s.st.toNat - 1 ∧
    s.tickTimers.events = (if s.st.toNat = 1 then s.events ++ [.soundStopped] else s.events) ∧
    ChangesOnly [.dt, .st, .events] s s.tickTimers

/-- After `n` ticks each timer holds its value less `n`, never below 0, and SoundStopped was emitted at most once
(46_timers.md section 1, which the spec derives). -/
def Obligations.TimersNeverGoBelowZero : Prop :=
  ∀ (s : State) (n : Nat),
    (State.tickTimers^[n] s).dt.toNat = s.dt.toNat - n ∧ (State.tickTimers^[n] s).st.toNat = s.st.toNat - n ∧
    (State.tickTimers^[n] s).events =
      if 0 < s.st.toNat ∧ s.st.toNat ≤ n then s.events ++ [.soundStopped] else s.events

/-- Every move but reset emits SoundStopped exactly when it takes the sound timer from nonzero to 0, and reset emits
nothing (46_timers.md section 3; the spec's own choice, D18; log 7). -/
def Obligations.SoundStoppedExactlyWhenSoundEnds : Prop :=
  ∀ (e : Event) (x y : Session) (rsp : Response), transition e x = .next (y, rsp) →
    y.core.events = x.core.events ++
      if e ≠ .reset ∧ x.core.soundActive = true ∧ y.core.soundActive = false then [.soundStopped] else []

/-! ### Whole-machine rules -/

/-- The write matrix of 10_state.md section 11, which the spec derives: whatever the state, an instruction changes no
element of the state, no register and no byte of memory but those its row names (with the mode, where it can raise an
error; draws and events are the model's own, log 6, log 7). The bytes are M[I..I+2] for Fx33 and M[I..I+x] for Fx55. -/
def Obligations.InstructionsWriteOnlyWhatTheMatrixLists : Prop :=
  ∀ (i : Instr) (s t : State), exec i s = .next t →
    ChangesOnly i.writes s t ∧ RegsKept i.writesRegs s t ∧
    (∀ x, i = .ldB x → BytesKept (s.indexed 0) 3 s t) ∧
    (∀ x, i = .storeRegs x → BytesKept (s.indexed 0) (x.val + 1) s t)

/-- Errors are precise: a step that halts leaves everything but mode and PC as it was, the record names the address of
the failing instruction, and either the fetch failed (PC unchanged, no word) or PC has advanced by 2 and the record
holds the fetched word (60_exceptions.md sections 1 and 2; the spec's own choice, D16; log 17). -/
def Obligations.FatalErrorsArePrecise : Prop :=
  ∀ (s t : State) (r : ErrorRecord), s.mode = .running → step s = .next t → t.mode = .halted r →
    ChangesOnly [.mode, .pc] s t ∧ r.at_ = s.pc ∧ r.legal ∧
    ((r.kind = .memoryBounds ∧ r.word = none ∧ t.pc = s.pc ∧ 4096 ≤ s.pc.toNat + 1) ∨
      (r.word = some (wordOfBytes (s.byte s.pc.toNat) (s.byte (s.pc.toNat + 1))) ∧ t.pc = s.pc + 2))

/-- A step leaves `diag` as it is or appends one report, of a word that is no instruction and stands at PC; no step
removes a report (10_state.md section 8; the log is the spec's own choice, D30). -/
def Obligations.DiagnosticLogOnlyGrows : Prop :=
  ∀ s t : State, step s = .next t →
    t.diag = s.diag ∨
      (s.mode = .running ∧ decodeWord (s.wordAt s.pc.toNat) = none ∧
        t.diag = s.diag ++ [⟨s.pc, s.wordAt s.pc.toNat⟩])

/-- The state after reset, whatever the parameters, satisfies the invariant. -/
def Obligations.ResetSatisfiesTheInvariant : Prop :=
  State.reset.Inv ∧ ∀ p : Params, (State.resetWith p).Inv

/-- From every state that satisfies the invariant, a step gives a state that satisfies it: memory stays in canonical
form, the stack stays bounded and holds fetchable-or-one-past return addresses, PC never needs a wrap, reports and error
records stay legal (10_state.md section 3, 30_encoding.md section 3, which the spec derives with D24). -/
def Obligations.StepKeepsTheInvariant : Prop :=
  ∀ s t : State, s.Inv → step s = .next t → t.Inv

/-- Every run, whatever the interleaving of steps, ticks and host moves, keeps the invariant (70_reset_and_hazards.md
section 4; free interleaving is the spec's own choice, D20). -/
def Obligations.EveryRunKeepsTheInvariant : Prop :=
  ∀ (es : List Event) (x y : Session), x.core.Inv → runEvents es x = .next y → y.core.Inv

/-- The font is never overwritten: under FONT_WRITE_POLICY = fault it is intact after every run from a state in which
it is intact, whatever the program and the host do (20_memory.md section 2; the policy is the spec's own choice, D6). -/
def Obligations.FontIsNeverOverwritten : Prop :=
  ∀ (es : List Event) (x y : Session), x.core.cfg.fontPolicy = .fault → x.core.FontIntact →
    runEvents es x = .next y → y.core.FontIntact

/-- No move changes the parameters of the machine (00_scope.md section 3; log 3). -/
def Obligations.ParametersNeverChange : Prop :=
  ∀ (es : List Event) (x y : Session), runEvents es x = .next y → y.core.cfg = x.core.cfg
end

