-- ==== Sys2Proof/Laws/State.lean ====
section
/-! SUPPORT. One lemma per field per named update of the state, each true by `rfl`, so that no proof unfolds a record
update. -/

namespace Sys2Proof.Machine

namespace State

variable (s : State)

@[simp] theorem setReg_v (r : Reg) (b : Byte) : (s.setReg r b).v = s.v.set r.val b := rfl
@[simp] theorem setReg_i (r : Reg) (b : Byte) : (s.setReg r b).i = s.i := rfl
@[simp] theorem setReg_pc (r : Reg) (b : Byte) : (s.setReg r b).pc = s.pc := rfl
@[simp] theorem setReg_stack (r : Reg) (b : Byte) : (s.setReg r b).stack = s.stack := rfl
@[simp] theorem setReg_dt (r : Reg) (b : Byte) : (s.setReg r b).dt = s.dt := rfl
@[simp] theorem setReg_st (r : Reg) (b : Byte) : (s.setReg r b).st = s.st := rfl
@[simp] theorem setReg_mem (r : Reg) (b : Byte) : (s.setReg r b).mem = s.mem := rfl
@[simp] theorem setReg_display (r : Reg) (b : Byte) : (s.setReg r b).display = s.display := rfl
@[simp] theorem setReg_dirty (r : Reg) (b : Byte) : (s.setReg r b).dirty = s.dirty := rfl
@[simp] theorem setReg_keys (r : Reg) (b : Byte) : (s.setReg r b).keys = s.keys := rfl
@[simp] theorem setReg_mode (r : Reg) (b : Byte) : (s.setReg r b).mode = s.mode := rfl
@[simp] theorem setReg_diag (r : Reg) (b : Byte) : (s.setReg r b).diag = s.diag := rfl
@[simp] theorem setReg_cfg (r : Reg) (b : Byte) : (s.setReg r b).cfg = s.cfg := rfl
@[simp] theorem setReg_draws (r : Reg) (b : Byte) : (s.setReg r b).draws = s.draws := rfl
@[simp] theorem setReg_events (r : Reg) (b : Byte) : (s.setReg r b).events = s.events := rfl

@[simp] theorem setByte_v (a : Nat) (b : Byte) : (s.setByte a b).v = s.v := rfl
@[simp] theorem setByte_i (a : Nat) (b : Byte) : (s.setByte a b).i = s.i := rfl
@[simp] theorem setByte_pc (a : Nat) (b : Byte) : (s.setByte a b).pc = s.pc := rfl
@[simp] theorem setByte_stack (a : Nat) (b : Byte) : (s.setByte a b).stack = s.stack := rfl
@[simp] theorem setByte_dt (a : Nat) (b : Byte) : (s.setByte a b).dt = s.dt := rfl
@[simp] theorem setByte_st (a : Nat) (b : Byte) : (s.setByte a b).st = s.st := rfl
@[simp] theorem setByte_mem (a : Nat) (b : Byte) : (s.setByte a b).mem = s.mem.set s.cfg.font a b := rfl
@[simp] theorem setByte_display (a : Nat) (b : Byte) : (s.setByte a b).display = s.display := rfl
@[simp] theorem setByte_dirty (a : Nat) (b : Byte) : (s.setByte a b).dirty = s.dirty := rfl
@[simp] theorem setByte_keys (a : Nat) (b : Byte) : (s.setByte a b).keys = s.keys := rfl
@[simp] theorem setByte_mode (a : Nat) (b : Byte) : (s.setByte a b).mode = s.mode := rfl
@[simp] theorem setByte_diag (a : Nat) (b : Byte) : (s.setByte a b).diag = s.diag := rfl
@[simp] theorem setByte_cfg (a : Nat) (b : Byte) : (s.setByte a b).cfg = s.cfg := rfl
@[simp] theorem setByte_draws (a : Nat) (b : Byte) : (s.setByte a b).draws = s.draws := rfl
@[simp] theorem setByte_events (a : Nat) (b : Byte) : (s.setByte a b).events = s.events := rfl

@[simp] theorem setI_v (w : Word) : (s.setI w).v = s.v := rfl
@[simp] theorem setI_i (w : Word) : (s.setI w).i = w := rfl
@[simp] theorem setI_pc (w : Word) : (s.setI w).pc = s.pc := rfl
@[simp] theorem setI_stack (w : Word) : (s.setI w).stack = s.stack := rfl
@[simp] theorem setI_dt (w : Word) : (s.setI w).dt = s.dt := rfl
@[simp] theorem setI_st (w : Word) : (s.setI w).st = s.st := rfl
@[simp] theorem setI_mem (w : Word) : (s.setI w).mem = s.mem := rfl
@[simp] theorem setI_display (w : Word) : (s.setI w).display = s.display := rfl
@[simp] theorem setI_dirty (w : Word) : (s.setI w).dirty = s.dirty := rfl
@[simp] theorem setI_keys (w : Word) : (s.setI w).keys = s.keys := rfl
@[simp] theorem setI_mode (w : Word) : (s.setI w).mode = s.mode := rfl
@[simp] theorem setI_diag (w : Word) : (s.setI w).diag = s.diag := rfl
@[simp] theorem setI_cfg (w : Word) : (s.setI w).cfg = s.cfg := rfl
@[simp] theorem setI_draws (w : Word) : (s.setI w).draws = s.draws := rfl
@[simp] theorem setI_events (w : Word) : (s.setI w).events = s.events := rfl

@[simp] theorem setPc_v (w : Word) : (s.setPc w).v = s.v := rfl
@[simp] theorem setPc_i (w : Word) : (s.setPc w).i = s.i := rfl
@[simp] theorem setPc_pc (w : Word) : (s.setPc w).pc = w := rfl
@[simp] theorem setPc_stack (w : Word) : (s.setPc w).stack = s.stack := rfl
@[simp] theorem setPc_dt (w : Word) : (s.setPc w).dt = s.dt := rfl
@[simp] theorem setPc_st (w : Word) : (s.setPc w).st = s.st := rfl
@[simp] theorem setPc_mem (w : Word) : (s.setPc w).mem = s.mem := rfl
@[simp] theorem setPc_display (w : Word) : (s.setPc w).display = s.display := rfl
@[simp] theorem setPc_dirty (w : Word) : (s.setPc w).dirty = s.dirty := rfl
@[simp] theorem setPc_keys (w : Word) : (s.setPc w).keys = s.keys := rfl
@[simp] theorem setPc_mode (w : Word) : (s.setPc w).mode = s.mode := rfl
@[simp] theorem setPc_diag (w : Word) : (s.setPc w).diag = s.diag := rfl
@[simp] theorem setPc_cfg (w : Word) : (s.setPc w).cfg = s.cfg := rfl
@[simp] theorem setPc_draws (w : Word) : (s.setPc w).draws = s.draws := rfl
@[simp] theorem setPc_events (w : Word) : (s.setPc w).events = s.events := rfl

@[simp] theorem skip_v : (s.skip).v = s.v := rfl
@[simp] theorem skip_i : (s.skip).i = s.i := rfl
@[simp] theorem skip_pc : (s.skip).pc = s.pc + 2 := rfl
@[simp] theorem skip_stack : (s.skip).stack = s.stack := rfl
@[simp] theorem skip_dt : (s.skip).dt = s.dt := rfl
@[simp] theorem skip_st : (s.skip).st = s.st := rfl
@[simp] theorem skip_mem : (s.skip).mem = s.mem := rfl
@[simp] theorem skip_display : (s.skip).display = s.display := rfl
@[simp] theorem skip_dirty : (s.skip).dirty = s.dirty := rfl
@[simp] theorem skip_keys : (s.skip).keys = s.keys := rfl
@[simp] theorem skip_mode : (s.skip).mode = s.mode := rfl
@[simp] theorem skip_diag : (s.skip).diag = s.diag := rfl
@[simp] theorem skip_cfg : (s.skip).cfg = s.cfg := rfl
@[simp] theorem skip_draws : (s.skip).draws = s.draws := rfl
@[simp] theorem skip_events : (s.skip).events = s.events := rfl

@[simp] theorem push_v (w : Word) : (s.push w).v = s.v := rfl
@[simp] theorem push_i (w : Word) : (s.push w).i = s.i := rfl
@[simp] theorem push_pc (w : Word) : (s.push w).pc = s.pc := rfl
@[simp] theorem push_stack (w : Word) : (s.push w).stack = s.stack ++ [w] := rfl
@[simp] theorem push_dt (w : Word) : (s.push w).dt = s.dt := rfl
@[simp] theorem push_st (w : Word) : (s.push w).st = s.st := rfl
@[simp] theorem push_mem (w : Word) : (s.push w).mem = s.mem := rfl
@[simp] theorem push_display (w : Word) : (s.push w).display = s.display := rfl
@[simp] theorem push_dirty (w : Word) : (s.push w).dirty = s.dirty := rfl
@[simp] theorem push_keys (w : Word) : (s.push w).keys = s.keys := rfl
@[simp] theorem push_mode (w : Word) : (s.push w).mode = s.mode := rfl
@[simp] theorem push_diag (w : Word) : (s.push w).diag = s.diag := rfl
@[simp] theorem push_cfg (w : Word) : (s.push w).cfg = s.cfg := rfl
@[simp] theorem push_draws (w : Word) : (s.push w).draws = s.draws := rfl
@[simp] theorem push_events (w : Word) : (s.push w).events = s.events := rfl

@[simp] theorem pop_v : (s.pop).v = s.v := rfl
@[simp] theorem pop_i : (s.pop).i = s.i := rfl
@[simp] theorem pop_pc : (s.pop).pc = s.pc := rfl
@[simp] theorem pop_stack : (s.pop).stack = s.stack.dropLast := rfl
@[simp] theorem pop_dt : (s.pop).dt = s.dt := rfl
@[simp] theorem pop_st : (s.pop).st = s.st := rfl
@[simp] theorem pop_mem : (s.pop).mem = s.mem := rfl
@[simp] theorem pop_display : (s.pop).display = s.display := rfl
@[simp] theorem pop_dirty : (s.pop).dirty = s.dirty := rfl
@[simp] theorem pop_keys : (s.pop).keys = s.keys := rfl
@[simp] theorem pop_mode : (s.pop).mode = s.mode := rfl
@[simp] theorem pop_diag : (s.pop).diag = s.diag := rfl
@[simp] theorem pop_cfg : (s.pop).cfg = s.cfg := rfl
@[simp] theorem pop_draws : (s.pop).draws = s.draws := rfl
@[simp] theorem pop_events : (s.pop).events = s.events := rfl

@[simp] theorem setDt_v (b : Byte) : (s.setDt b).v = s.v := rfl
@[simp] theorem setDt_i (b : Byte) : (s.setDt b).i = s.i := rfl
@[simp] theorem setDt_pc (b : Byte) : (s.setDt b).pc = s.pc := rfl
@[simp] theorem setDt_stack (b : Byte) : (s.setDt b).stack = s.stack := rfl
@[simp] theorem setDt_dt (b : Byte) : (s.setDt b).dt = b := rfl
@[simp] theorem setDt_st (b : Byte) : (s.setDt b).st = s.st := rfl
@[simp] theorem setDt_mem (b : Byte) : (s.setDt b).mem = s.mem := rfl
@[simp] theorem setDt_display (b : Byte) : (s.setDt b).display = s.display := rfl
@[simp] theorem setDt_dirty (b : Byte) : (s.setDt b).dirty = s.dirty := rfl
@[simp] theorem setDt_keys (b : Byte) : (s.setDt b).keys = s.keys := rfl
@[simp] theorem setDt_mode (b : Byte) : (s.setDt b).mode = s.mode := rfl
@[simp] theorem setDt_diag (b : Byte) : (s.setDt b).diag = s.diag := rfl
@[simp] theorem setDt_cfg (b : Byte) : (s.setDt b).cfg = s.cfg := rfl
@[simp] theorem setDt_draws (b : Byte) : (s.setDt b).draws = s.draws := rfl
@[simp] theorem setDt_events (b : Byte) : (s.setDt b).events = s.events := rfl

@[simp] theorem setSt_v (b : Byte) : (s.setSt b).v = s.v := rfl
@[simp] theorem setSt_i (b : Byte) : (s.setSt b).i = s.i := rfl
@[simp] theorem setSt_pc (b : Byte) : (s.setSt b).pc = s.pc := rfl
@[simp] theorem setSt_stack (b : Byte) : (s.setSt b).stack = s.stack := rfl
@[simp] theorem setSt_dt (b : Byte) : (s.setSt b).dt = s.dt := rfl
@[simp] theorem setSt_st (b : Byte) : (s.setSt b).st = b := rfl
@[simp] theorem setSt_mem (b : Byte) : (s.setSt b).mem = s.mem := rfl
@[simp] theorem setSt_display (b : Byte) : (s.setSt b).display = s.display := rfl
@[simp] theorem setSt_dirty (b : Byte) : (s.setSt b).dirty = s.dirty := rfl
@[simp] theorem setSt_keys (b : Byte) : (s.setSt b).keys = s.keys := rfl
@[simp] theorem setSt_mode (b : Byte) : (s.setSt b).mode = s.mode := rfl
@[simp] theorem setSt_diag (b : Byte) : (s.setSt b).diag = s.diag := rfl
@[simp] theorem setSt_cfg (b : Byte) : (s.setSt b).cfg = s.cfg := rfl
@[simp] theorem setSt_draws (b : Byte) : (s.setSt b).draws = s.draws := rfl
@[simp] theorem setSt_events (b : Byte) : (s.setSt b).events = if s.st ≠ 0 ∧ b = 0 then s.events ++ [.soundStopped] else s.events := rfl

@[simp] theorem report_v (a w : Word) : (s.report a w).v = s.v := rfl
@[simp] theorem report_i (a w : Word) : (s.report a w).i = s.i := rfl
@[simp] theorem report_pc (a w : Word) : (s.report a w).pc = s.pc := rfl
@[simp] theorem report_stack (a w : Word) : (s.report a w).stack = s.stack := rfl
@[simp] theorem report_dt (a w : Word) : (s.report a w).dt = s.dt := rfl
@[simp] theorem report_st (a w : Word) : (s.report a w).st = s.st := rfl
@[simp] theorem report_mem (a w : Word) : (s.report a w).mem = s.mem := rfl
@[simp] theorem report_display (a w : Word) : (s.report a w).display = s.display := rfl
@[simp] theorem report_dirty (a w : Word) : (s.report a w).dirty = s.dirty := rfl
@[simp] theorem report_keys (a w : Word) : (s.report a w).keys = s.keys := rfl
@[simp] theorem report_mode (a w : Word) : (s.report a w).mode = s.mode := rfl
@[simp] theorem report_diag (a w : Word) : (s.report a w).diag = s.diag ++ [⟨a, w⟩] := rfl
@[simp] theorem report_cfg (a w : Word) : (s.report a w).cfg = s.cfg := rfl
@[simp] theorem report_draws (a w : Word) : (s.report a w).draws = s.draws := rfl
@[simp] theorem report_events (a w : Word) : (s.report a w).events = s.events := rfl

@[simp] theorem halt_v (r : ErrorRecord) : (s.halt r).v = s.v := rfl
@[simp] theorem halt_i (r : ErrorRecord) : (s.halt r).i = s.i := rfl
@[simp] theorem halt_pc (r : ErrorRecord) : (s.halt r).pc = s.pc := rfl
@[simp] theorem halt_stack (r : ErrorRecord) : (s.halt r).stack = s.stack := rfl
@[simp] theorem halt_dt (r : ErrorRecord) : (s.halt r).dt = s.dt := rfl
@[simp] theorem halt_st (r : ErrorRecord) : (s.halt r).st = s.st := rfl
@[simp] theorem halt_mem (r : ErrorRecord) : (s.halt r).mem = s.mem := rfl
@[simp] theorem halt_display (r : ErrorRecord) : (s.halt r).display = s.display := rfl
@[simp] theorem halt_dirty (r : ErrorRecord) : (s.halt r).dirty = s.dirty := rfl
@[simp] theorem halt_keys (r : ErrorRecord) : (s.halt r).keys = s.keys := rfl
@[simp] theorem halt_mode (r : ErrorRecord) : (s.halt r).mode = .halted r := rfl
@[simp] theorem halt_diag (r : ErrorRecord) : (s.halt r).diag = s.diag := rfl
@[simp] theorem halt_cfg (r : ErrorRecord) : (s.halt r).cfg = s.cfg := rfl
@[simp] theorem halt_draws (r : ErrorRecord) : (s.halt r).draws = s.draws := rfl
@[simp] theorem halt_events (r : ErrorRecord) : (s.halt r).events = s.events := rfl

@[simp] theorem raise_v (i : Instr) (e : FatalError) (d : Option Nat) : (s.raise i e d).v = s.v := rfl
@[simp] theorem raise_i (i : Instr) (e : FatalError) (d : Option Nat) : (s.raise i e d).i = s.i := rfl
@[simp] theorem raise_pc (i : Instr) (e : FatalError) (d : Option Nat) : (s.raise i e d).pc = s.pc := rfl
@[simp] theorem raise_stack (i : Instr) (e : FatalError) (d : Option Nat) : (s.raise i e d).stack = s.stack := rfl
@[simp] theorem raise_dt (i : Instr) (e : FatalError) (d : Option Nat) : (s.raise i e d).dt = s.dt := rfl
@[simp] theorem raise_st (i : Instr) (e : FatalError) (d : Option Nat) : (s.raise i e d).st = s.st := rfl
@[simp] theorem raise_mem (i : Instr) (e : FatalError) (d : Option Nat) : (s.raise i e d).mem = s.mem := rfl
@[simp] theorem raise_display (i : Instr) (e : FatalError) (d : Option Nat) : (s.raise i e d).display = s.display := rfl
@[simp] theorem raise_dirty (i : Instr) (e : FatalError) (d : Option Nat) : (s.raise i e d).dirty = s.dirty := rfl
@[simp] theorem raise_keys (i : Instr) (e : FatalError) (d : Option Nat) : (s.raise i e d).keys = s.keys := rfl
@[simp] theorem raise_mode (i : Instr) (e : FatalError) (d : Option Nat) : (s.raise i e d).mode = .halted ⟨e, s.pc - 2, some (encode i), d⟩ := rfl
@[simp] theorem raise_diag (i : Instr) (e : FatalError) (d : Option Nat) : (s.raise i e d).diag = s.diag := rfl
@[simp] theorem raise_cfg (i : Instr) (e : FatalError) (d : Option Nat) : (s.raise i e d).cfg = s.cfg := rfl
@[simp] theorem raise_draws (i : Instr) (e : FatalError) (d : Option Nat) : (s.raise i e d).draws = s.draws := rfl
@[simp] theorem raise_events (i : Instr) (e : FatalError) (d : Option Nat) : (s.raise i e d).events = s.events := rfl

@[simp] theorem raiseFetch_v (e : FatalError) (a : Nat) : (s.raiseFetch e a).v = s.v := rfl
@[simp] theorem raiseFetch_i (e : FatalError) (a : Nat) : (s.raiseFetch e a).i = s.i := rfl
@[simp] theorem raiseFetch_pc (e : FatalError) (a : Nat) : (s.raiseFetch e a).pc = s.pc := rfl
@[simp] theorem raiseFetch_stack (e : FatalError) (a : Nat) : (s.raiseFetch e a).stack = s.stack := rfl
@[simp] theorem raiseFetch_dt (e : FatalError) (a : Nat) : (s.raiseFetch e a).dt = s.dt := rfl
@[simp] theorem raiseFetch_st (e : FatalError) (a : Nat) : (s.raiseFetch e a).st = s.st := rfl
@[simp] theorem raiseFetch_mem (e : FatalError) (a : Nat) : (s.raiseFetch e a).mem = s.mem := rfl
@[simp] theorem raiseFetch_display (e : FatalError) (a : Nat) : (s.raiseFetch e a).display = s.display := rfl
@[simp] theorem raiseFetch_dirty (e : FatalError) (a : Nat) : (s.raiseFetch e a).dirty = s.dirty := rfl
@[simp] theorem raiseFetch_keys (e : FatalError) (a : Nat) : (s.raiseFetch e a).keys = s.keys := rfl
@[simp] theorem raiseFetch_mode (e : FatalError) (a : Nat) : (s.raiseFetch e a).mode = .halted ⟨e, s.pc, none, some a⟩ := rfl
@[simp] theorem raiseFetch_diag (e : FatalError) (a : Nat) : (s.raiseFetch e a).diag = s.diag := rfl
@[simp] theorem raiseFetch_cfg (e : FatalError) (a : Nat) : (s.raiseFetch e a).cfg = s.cfg := rfl
@[simp] theorem raiseFetch_draws (e : FatalError) (a : Nat) : (s.raiseFetch e a).draws = s.draws := rfl
@[simp] theorem raiseFetch_events (e : FatalError) (a : Nat) : (s.raiseFetch e a).events = s.events := rfl

@[simp] theorem setKey_v (k : Key) (b : Bool) : (s.setKey k b).v = s.v := rfl
@[simp] theorem setKey_i (k : Key) (b : Bool) : (s.setKey k b).i = s.i := rfl
@[simp] theorem setKey_pc (k : Key) (b : Bool) : (s.setKey k b).pc = s.pc := rfl
@[simp] theorem setKey_stack (k : Key) (b : Bool) : (s.setKey k b).stack = s.stack := rfl
@[simp] theorem setKey_dt (k : Key) (b : Bool) : (s.setKey k b).dt = s.dt := rfl
@[simp] theorem setKey_st (k : Key) (b : Bool) : (s.setKey k b).st = s.st := rfl
@[simp] theorem setKey_mem (k : Key) (b : Bool) : (s.setKey k b).mem = s.mem := rfl
@[simp] theorem setKey_display (k : Key) (b : Bool) : (s.setKey k b).display = s.display := rfl
@[simp] theorem setKey_dirty (k : Key) (b : Bool) : (s.setKey k b).dirty = s.dirty := rfl
@[simp] theorem setKey_keys (k : Key) (b : Bool) : (s.setKey k b).keys = s.keys.set k.val b := rfl
@[simp] theorem setKey_mode (k : Key) (b : Bool) : (s.setKey k b).mode = s.mode := rfl
@[simp] theorem setKey_diag (k : Key) (b : Bool) : (s.setKey k b).diag = s.diag := rfl
@[simp] theorem setKey_cfg (k : Key) (b : Bool) : (s.setKey k b).cfg = s.cfg := rfl
@[simp] theorem setKey_draws (k : Key) (b : Bool) : (s.setKey k b).draws = s.draws := rfl
@[simp] theorem setKey_events (k : Key) (b : Bool) : (s.setKey k b).events = s.events := rfl

@[simp] theorem clearDisplay_v : (s.clearDisplay).v = s.v := rfl
@[simp] theorem clearDisplay_i : (s.clearDisplay).i = s.i := rfl
@[simp] theorem clearDisplay_pc : (s.clearDisplay).pc = s.pc := rfl
@[simp] theorem clearDisplay_stack : (s.clearDisplay).stack = s.stack := rfl
@[simp] theorem clearDisplay_dt : (s.clearDisplay).dt = s.dt := rfl
@[simp] theorem clearDisplay_st : (s.clearDisplay).st = s.st := rfl
@[simp] theorem clearDisplay_mem : (s.clearDisplay).mem = s.mem := rfl
@[simp] theorem clearDisplay_display : (s.clearDisplay).display = blankDisplay := rfl
@[simp] theorem clearDisplay_dirty : (s.clearDisplay).dirty = true := rfl
@[simp] theorem clearDisplay_keys : (s.clearDisplay).keys = s.keys := rfl
@[simp] theorem clearDisplay_mode : (s.clearDisplay).mode = s.mode := rfl
@[simp] theorem clearDisplay_diag : (s.clearDisplay).diag = s.diag := rfl
@[simp] theorem clearDisplay_cfg : (s.clearDisplay).cfg = s.cfg := rfl
@[simp] theorem clearDisplay_draws : (s.clearDisplay).draws = s.draws := rfl
@[simp] theorem clearDisplay_events : (s.clearDisplay).events = s.events := rfl

@[simp] theorem drawn_v (p : Display × Bool) : (s.drawn p).v = s.v.set 15 (bitByte p.2) := rfl
@[simp] theorem drawn_i (p : Display × Bool) : (s.drawn p).i = s.i := rfl
@[simp] theorem drawn_pc (p : Display × Bool) : (s.drawn p).pc = s.pc := rfl
@[simp] theorem drawn_stack (p : Display × Bool) : (s.drawn p).stack = s.stack := rfl
@[simp] theorem drawn_dt (p : Display × Bool) : (s.drawn p).dt = s.dt := rfl
@[simp] theorem drawn_st (p : Display × Bool) : (s.drawn p).st = s.st := rfl
@[simp] theorem drawn_mem (p : Display × Bool) : (s.drawn p).mem = s.mem := rfl
@[simp] theorem drawn_display (p : Display × Bool) : (s.drawn p).display = p.1 := rfl
@[simp] theorem drawn_dirty (p : Display × Bool) : (s.drawn p).dirty = true := rfl
@[simp] theorem drawn_keys (p : Display × Bool) : (s.drawn p).keys = s.keys := rfl
@[simp] theorem drawn_mode (p : Display × Bool) : (s.drawn p).mode = s.mode := rfl
@[simp] theorem drawn_diag (p : Display × Bool) : (s.drawn p).diag = s.diag := rfl
@[simp] theorem drawn_cfg (p : Display × Bool) : (s.drawn p).cfg = s.cfg := rfl
@[simp] theorem drawn_draws (p : Display × Bool) : (s.drawn p).draws = s.draws := rfl
@[simp] theorem drawn_events (p : Display × Bool) : (s.drawn p).events = s.events := rfl

end State

end Sys2Proof.Machine
end

