-- ==== Sys2Proof/Laws/Registers.lean ====
section
/-! SUPPORT. Reading a register: after a register write, and after every other named update. -/

namespace Sys2Proof.Machine

namespace State

variable (s : State)

@[simp] theorem reg_setReg (x : Reg) (b : Byte) (r : Reg) : (s.setReg x b).reg r = if r = x then b else s.reg r := by
  unfold reg setReg
  by_cases h : r = x
  · subst h; simp
  · have : x.val ≠ r.val := fun e => h (Fin.ext e.symm)
    simp [h, Vector.getElem_set_ne, this]

@[simp] theorem reg_drawn (p : Display × Bool) (r : Reg) :
    (s.drawn p).reg r = if r = VF then bitByte p.2 else s.reg r := reg_setReg _ _ _ _

/-- Two states with the same registers, read one by one, have the same register file. -/
theorem v_ext {s t : State} (h : ∀ r, t.reg r = s.reg r) : t.v = s.v := by
  apply Vector.ext
  intro k hk
  exact h ⟨k, hk⟩

@[simp] theorem reg_setByte (a : Nat) (b : Byte) (r' : Reg) : (s.setByte a b).reg r' = s.reg r' := rfl
@[simp] theorem reg_setI (w : Word) (r' : Reg) : (s.setI w).reg r' = s.reg r' := rfl
@[simp] theorem reg_setPc (w : Word) (r' : Reg) : (s.setPc w).reg r' = s.reg r' := rfl
@[simp] theorem reg_skip (r' : Reg) : (s.skip).reg r' = s.reg r' := rfl
@[simp] theorem reg_push (w : Word) (r' : Reg) : (s.push w).reg r' = s.reg r' := rfl
@[simp] theorem reg_pop (r' : Reg) : (s.pop).reg r' = s.reg r' := rfl
@[simp] theorem reg_setDt (b : Byte) (r' : Reg) : (s.setDt b).reg r' = s.reg r' := rfl
@[simp] theorem reg_setSt (b : Byte) (r' : Reg) : (s.setSt b).reg r' = s.reg r' := rfl
@[simp] theorem reg_report (a w : Word) (r' : Reg) : (s.report a w).reg r' = s.reg r' := rfl
@[simp] theorem reg_draw (r' : Reg) : (s.draw.2).reg r' = s.reg r' := rfl
@[simp] theorem reg_halt (r : ErrorRecord) (r' : Reg) : (s.halt r).reg r' = s.reg r' := rfl
@[simp] theorem reg_raise (i : Instr) (e : FatalError) (d : Option Nat) (r' : Reg) : (s.raise i e d).reg r' = s.reg r' := rfl
@[simp] theorem reg_raiseFetch (e : FatalError) (a : Nat) (r' : Reg) : (s.raiseFetch e a).reg r' = s.reg r' := rfl
@[simp] theorem reg_setKey (k : Key) (b : Bool) (r' : Reg) : (s.setKey k b).reg r' = s.reg r' := rfl
@[simp] theorem reg_clearDisplay (r' : Reg) : (s.clearDisplay).reg r' = s.reg r' := rfl

end State

end Sys2Proof.Machine
end

