-- ==== Sys2Proof/Laws/Memory.lean ====
section
/-! SUPPORT. Memory: a byte read after a write, the canonical form, and the byte sequences of the transfers
(20_memory.md R55 to R60). -/

namespace Sys2Proof.Machine

/-- The address part of the canonical form. -/
abbrev Memory.sorted (m : Memory) : Prop := m.Pairwise (fun p q => p.1 < q.1)

theorem Memory.get_of_all_above {font : Font} {m : Memory} {a : Nat} (h : ∀ c ∈ m, a < c.1) :
    Memory.get font m a = resetByte font a := by
  induction m with
  | nil => rfl
  | cons c rest ih =>
    obtain ⟨k, b⟩ := c
    have hk : a < k := h (k, b) (by simp)
    simp only [Memory.get, if_neg (Nat.ne_of_gt hk)]
    exact ih fun c hc => h c (by simp [hc])

theorem Memory.get_cons_same {font : Font} {m : Memory} {a : Nat} {b : Byte} (h : ∀ c ∈ m, a < c.1) :
    Memory.get font (Memory.cons font a b m) a = b := by
  unfold Memory.cons
  split
  · next e => rw [Memory.get_of_all_above h, e]
  · simp [Memory.get]

theorem Memory.get_cons_other {font : Font} {m : Memory} {a c : Nat} {b : Byte} (h : c ≠ a) :
    Memory.get font (Memory.cons font a b m) c = Memory.get font m c := by
  unfold Memory.cons
  split
  · rfl
  · simp [Memory.get, h.symm]

/-- A read after a write to the same address gives the value written. -/
theorem Memory.get_set_same {font : Font} {m : Memory} (hm : m.sorted) (a : Nat) (b : Byte) :
    Memory.get font (Memory.set font m a b) a = b := by
  induction m with
  | nil => exact Memory.get_cons_same (by simp)
  | cons c rest ih =>
    obtain ⟨k, x⟩ := c
    have hr : ∀ c ∈ rest, k < c.1 := (List.pairwise_cons.mp hm).1
    simp only [Memory.set]
    split
    · next lt =>
      apply Memory.get_cons_same
      intro c hc
      rcases List.mem_cons.mp hc with rfl | hc
      · exact lt
      · exact lt.trans (hr c hc)
    · split
      · next e => subst e; exact Memory.get_cons_same hr
      · next ne => simpa [Memory.get, Ne.symm ne] using ih (List.pairwise_cons.mp hm).2

/-- A write leaves every other address alone. -/
theorem Memory.get_set_other {font : Font} (m : Memory) {a c : Nat} (b : Byte) (h : c ≠ a) :
    Memory.get font (Memory.set font m a b) c = Memory.get font m c := by
  induction m with
  | nil => exact Memory.get_cons_other h
  | cons p rest ih =>
    obtain ⟨k, x⟩ := p
    simp only [Memory.set]
    split
    · exact Memory.get_cons_other h
    · split
      · next e => subst e; simp [Memory.get_cons_other h, Memory.get, h.symm]
      · by_cases e : k = c <;> simp [Memory.get, e, ih]

theorem Memory.mem_cons {font : Font} {m : Memory} {a : Nat} {b : Byte} {c : Host.Cell}
    (h : c ∈ Memory.cons font a b m) : (c = (a, b) ∧ b ≠ resetByte font a) ∨ c ∈ m := by
  unfold Memory.cons at h
  split at h
  · exact .inr h
  · next ne => exact (List.mem_cons.mp h).imp (⟨·, ne⟩) id

theorem Memory.cons_sorted {font : Font} {m : Memory} {a : Nat} {b : Byte} (hm : m.sorted) (h : ∀ c ∈ m, a < c.1) :
    (Memory.cons font a b m).sorted := by
  unfold Memory.cons
  split
  · exact hm
  · exact List.pairwise_cons.mpr ⟨h, hm⟩

theorem Memory.mem_set {font : Font} {m : Memory} {a : Nat} {b : Byte} {c : Host.Cell}
    (h : c ∈ Memory.set font m a b) : (c = (a, b) ∧ b ≠ resetByte font a) ∨ c ∈ m := by
  induction m with
  | nil => exact Memory.mem_cons h
  | cons p rest ih =>
    simp only [Memory.set] at h
    split at h
    · exact Memory.mem_cons h
    · split at h
      · exact (Memory.mem_cons h).imp id (List.mem_cons_of_mem _)
      · rcases List.mem_cons.mp h with rfl | h
        · exact .inr (by simp)
        · exact (ih h).imp id (List.mem_cons_of_mem _)

theorem Memory.set_sorted {font : Font} {m : Memory} (hm : m.sorted) (a : Nat) (b : Byte) :
    (Memory.set font m a b).sorted := by
  induction m with
  | nil => exact Memory.cons_sorted hm (by simp)
  | cons p rest ih =>
    obtain ⟨k, x⟩ := p
    obtain ⟨hr, hs⟩ := List.pairwise_cons.mp hm
    simp only [Memory.set]
    split
    · next lt =>
      refine Memory.cons_sorted hm fun c hc => ?_
      rcases List.mem_cons.mp hc with rfl | hc
      · exact lt
      · exact lt.trans (hr c hc)
    · next nlt =>
      split
      · next e => subst e; exact Memory.cons_sorted hs hr
      · next ne =>
        refine List.pairwise_cons.mpr ⟨fun c hc => ?_, ih hs⟩
        rcases Memory.mem_set hc with ⟨rfl, -⟩ | hc
        · simp only; omega
        · exact hr c hc

/-- A write inside the memory keeps the canonical form. -/
theorem Memory.set_wf {font : Font} {m : Memory} (hm : Memory.wf font m) {a : Nat} (ha : a < memSize) (b : Byte) :
    Memory.wf font (Memory.set font m a b) := by
  refine ⟨Memory.set_sorted hm.1 a b, fun c hc => ?_⟩
  rcases Memory.mem_set hc with ⟨rfl, ne⟩ | hc
  · exact ⟨ha, ne⟩
  · exact hm.2 c hc

/-- The glyph of a digit stands at five times the digit (R53, R54). -/
theorem resetByte_glyph (font : Font) {d k : Nat} (hd : d < 16) (hk : k < 5) :
    resetByte font (5 * d + k) = (font[d])[k] := by
  have h1 : (5 * d + k) / 5 = d := by omega
  have h2 : (5 * d + k) % 5 = k := by omega
  simp [resetByte, show 5 * d + k < 80 by omega, h1, h2]

/-- Memory right after reset has the canonical form. -/
theorem Memory.wf_nil (font : Font) : Memory.wf font [] := by simp [Memory.wf]

namespace State

variable (s : State)

@[simp] theorem byte_setReg (r : Reg) (b : Byte) (a' : Nat) : (s.setReg r b).byte a' = s.byte a' := rfl
@[simp] theorem byte_setI (w : Word) (a' : Nat) : (s.setI w).byte a' = s.byte a' := rfl
@[simp] theorem byte_setPc (w : Word) (a' : Nat) : (s.setPc w).byte a' = s.byte a' := rfl
@[simp] theorem byte_skip (a' : Nat) : (s.skip).byte a' = s.byte a' := rfl
@[simp] theorem byte_push (w : Word) (a' : Nat) : (s.push w).byte a' = s.byte a' := rfl
@[simp] theorem byte_pop (a' : Nat) : (s.pop).byte a' = s.byte a' := rfl
@[simp] theorem byte_setDt (b : Byte) (a' : Nat) : (s.setDt b).byte a' = s.byte a' := rfl
@[simp] theorem byte_setSt (b : Byte) (a' : Nat) : (s.setSt b).byte a' = s.byte a' := rfl
@[simp] theorem byte_report (a w : Word) (a' : Nat) : (s.report a w).byte a' = s.byte a' := rfl
@[simp] theorem byte_draw (a' : Nat) : (s.draw.2).byte a' = s.byte a' := rfl
@[simp] theorem byte_halt (r : ErrorRecord) (a' : Nat) : (s.halt r).byte a' = s.byte a' := rfl
@[simp] theorem byte_raise (i : Instr) (e : FatalError) (d : Option Nat) (a' : Nat) : (s.raise i e d).byte a' = s.byte a' := rfl
@[simp] theorem byte_raiseFetch (e : FatalError) (a : Nat) (a' : Nat) : (s.raiseFetch e a).byte a' = s.byte a' := rfl
@[simp] theorem byte_setKey (k : Key) (b : Bool) (a' : Nat) : (s.setKey k b).byte a' = s.byte a' := rfl
@[simp] theorem byte_clearDisplay (a' : Nat) : (s.clearDisplay).byte a' = s.byte a' := rfl
@[simp] theorem byte_drawn (p : Display × Bool) (a' : Nat) : (s.drawn p).byte a' = s.byte a' := rfl

theorem byte_setByte_same (h : s.mem.sorted) (a : Nat) (b : Byte) : (s.setByte a b).byte a = b :=
  Memory.get_set_same h a b

theorem byte_setByte_other {a c : Nat} (b : Byte) (h : c ≠ a) : (s.setByte a b).byte c = s.byte c :=
  Memory.get_set_other s.mem b h

@[simp] theorem writeBytes_v (a : Nat) (bs : List Byte) : (s.writeBytes a bs).v = s.v := by
  induction bs generalizing s a with
  | nil => rfl
  | cons b bs ih => simp [writeBytes, ih]

@[simp] theorem writeBytes_i (a : Nat) (bs : List Byte) : (s.writeBytes a bs).i = s.i := by
  induction bs generalizing s a with
  | nil => rfl
  | cons b bs ih => simp [writeBytes, ih]

@[simp] theorem writeBytes_pc (a : Nat) (bs : List Byte) : (s.writeBytes a bs).pc = s.pc := by
  induction bs generalizing s a with
  | nil => rfl
  | cons b bs ih => simp [writeBytes, ih]

@[simp] theorem writeBytes_stack (a : Nat) (bs : List Byte) : (s.writeBytes a bs).stack = s.stack := by
  induction bs generalizing s a with
  | nil => rfl
  | cons b bs ih => simp [writeBytes, ih]

@[simp] theorem writeBytes_dt (a : Nat) (bs : List Byte) : (s.writeBytes a bs).dt = s.dt := by
  induction bs generalizing s a with
  | nil => rfl
  | cons b bs ih => simp [writeBytes, ih]

@[simp] theorem writeBytes_st (a : Nat) (bs : List Byte) : (s.writeBytes a bs).st = s.st := by
  induction bs generalizing s a with
  | nil => rfl
  | cons b bs ih => simp [writeBytes, ih]

@[simp] theorem writeBytes_display (a : Nat) (bs : List Byte) : (s.writeBytes a bs).display = s.display := by
  induction bs generalizing s a with
  | nil => rfl
  | cons b bs ih => simp [writeBytes, ih]

@[simp] theorem writeBytes_dirty (a : Nat) (bs : List Byte) : (s.writeBytes a bs).dirty = s.dirty := by
  induction bs generalizing s a with
  | nil => rfl
  | cons b bs ih => simp [writeBytes, ih]

@[simp] theorem writeBytes_keys (a : Nat) (bs : List Byte) : (s.writeBytes a bs).keys = s.keys := by
  induction bs generalizing s a with
  | nil => rfl
  | cons b bs ih => simp [writeBytes, ih]

@[simp] theorem writeBytes_mode (a : Nat) (bs : List Byte) : (s.writeBytes a bs).mode = s.mode := by
  induction bs generalizing s a with
  | nil => rfl
  | cons b bs ih => simp [writeBytes, ih]

@[simp] theorem writeBytes_diag (a : Nat) (bs : List Byte) : (s.writeBytes a bs).diag = s.diag := by
  induction bs generalizing s a with
  | nil => rfl
  | cons b bs ih => simp [writeBytes, ih]

@[simp] theorem writeBytes_cfg (a : Nat) (bs : List Byte) : (s.writeBytes a bs).cfg = s.cfg := by
  induction bs generalizing s a with
  | nil => rfl
  | cons b bs ih => simp [writeBytes, ih]

@[simp] theorem writeBytes_draws (a : Nat) (bs : List Byte) : (s.writeBytes a bs).draws = s.draws := by
  induction bs generalizing s a with
  | nil => rfl
  | cons b bs ih => simp [writeBytes, ih]

@[simp] theorem writeBytes_events (a : Nat) (bs : List Byte) : (s.writeBytes a bs).events = s.events := by
  induction bs generalizing s a with
  | nil => rfl
  | cons b bs ih => simp [writeBytes, ih]

@[simp] theorem reg_writeBytes (a : Nat) (bs : List Byte) (r : Reg) : (s.writeBytes a bs).reg r = s.reg r := by
  simp [reg]

/-- Storing a sequence leaves every byte outside it alone. -/
theorem byte_writeBytes_outside {a c : Nat} {bs : List Byte} (h : c < a ∨ a + bs.length ≤ c) :
    (s.writeBytes a bs).byte c = s.byte c := by
  induction bs generalizing s a with
  | nil => rfl
  | cons b bs ih =>
    simp only [List.length_cons] at h
    rw [writeBytes, ih _ (by omega), byte_setByte_other]
    omega

theorem writeBytes_sorted (h : s.mem.sorted) (a : Nat) (bs : List Byte) : (s.writeBytes a bs).mem.sorted := by
  induction bs generalizing s a with
  | nil => exact h
  | cons b bs ih => exact ih _ (Memory.set_sorted h a b) _

/-- Storing a sequence puts its k-th byte at the k-th address. -/
theorem byte_writeBytes_inside (h : s.mem.sorted) {a k : Nat} {bs : List Byte} (hk : k < bs.length) :
    (s.writeBytes a bs).byte (a + k) = bs[k] := by
  induction bs generalizing s a k with
  | nil => simp at hk
  | cons b bs ih =>
    rw [writeBytes]
    cases k with
    | zero =>
      rw [byte_writeBytes_outside _ (by omega)]
      exact byte_setByte_same s h a b
    | succ k =>
      have := ih (s.setByte a b) (Memory.set_sorted h a b) (a := a + 1) (k := k) (by simpa using hk)
      simpa [Nat.add_assoc, Nat.add_comm 1 k] using this

/-- Storing a sequence inside the memory keeps the canonical form. -/
theorem writeBytes_wf (h : Memory.wf s.cfg.font s.mem) {a : Nat} {bs : List Byte} (ha : a + bs.length ≤ memSize) :
    Memory.wf s.cfg.font (s.writeBytes a bs).mem := by
  induction bs generalizing s a with
  | nil => exact h
  | cons b bs ih =>
    simp only [List.length_cons] at ha
    exact ih (s.setByte a b) (Memory.set_wf h (by simp only [memSize] at *; omega) b) (by simp only [memSize] at *; omega)

@[simp] theorem length_readBytes (a n : Nat) : (s.readBytes a n).length = n := by
  induction n generalizing a with
  | zero => rfl
  | succ n ih => simp [readBytes, ih]

/-- The k-th byte of a read sequence is the byte at the k-th address. -/
theorem getElem_readBytes {a n k : Nat} (h : k < (s.readBytes a n).length) : (s.readBytes a n)[k] = s.byte (a + k) := by
  induction n generalizing a k with
  | zero => simp at h
  | succ n ih =>
    cases k with
    | zero => simp [readBytes]
    | succ k =>
      have h' : k < (s.readBytes (a + 1) n).length := by simpa using h
      simpa [readBytes, Nat.add_assoc, Nat.add_comm 1 k] using ih h'

@[simp] theorem length_regsUpTo (x : Reg) : (s.regsUpTo x).length = x.val + 1 := by
  simp [regsUpTo]

/-- The k-th byte that Fx55 stores is `V[k]`. -/
theorem getElem_regsUpTo {x : Reg} {k : Nat} (h : k < (s.regsUpTo x).length) :
    (s.regsUpTo x)[k] = s.reg ⟨k, by simp at h; omega⟩ := by
  simp [regsUpTo, reg]

end State

/-- Fx65's destinations: register `k + j` gets the j-th byte, every other register keeps its value. -/
theorem getElem_setRegsFrom (v : Vector Byte 16) (k : Nat) (bs : List Byte) {r : Nat} (hr : r < 16) :
    (setRegsFrom v k bs)[r] = if h : k ≤ r ∧ r - k < bs.length then bs[r - k]'h.2 else v[r] := by
  induction bs generalizing v k with
  | nil => simp [setRegsFrom]
  | cons b bs ih =>
    rw [setRegsFrom, ih]
    rcases Nat.lt_trichotomy k r with h | h | h
    · obtain ⟨d, rfl⟩ := Nat.exists_eq_add_of_lt h
      have e1 : k + d + 1 - (k + 1) = d := by omega
      have e2 : k + d + 1 - k = d + 1 := by omega
      simp [e1, e2, show k + 1 ≤ k + d + 1 by omega, show k ≤ k + d + 1 by omega,
        show k ≠ k + d + 1 by omega]
    · subst h
      simp [show ¬ k + 1 ≤ k by omega]
    · simp [show ¬ k + 1 ≤ r by omega, show ¬ k ≤ r by omega, show k ≠ r by omega]

end Sys2Proof.Machine
end

