-- ==== Sys2Proof/Laws/Checks.lean ====
section
/-! SUPPORT. The address checks: when a range passes, and what is raised when it does not (20_memory.md R55, R56;
60_exceptions.md R278). -/

namespace Sys2Proof.Machine

theorem firstFailure_eq_none {check : Nat → Option FatalError} {a n : Nat} :
    firstFailure check a n = none ↔ ∀ k, k < n → check (a + k) = none := by
  induction n generalizing a with
  | zero => simp [firstFailure]
  | succ n ih =>
    rw [firstFailure]
    constructor
    · intro h k hk
      split at h
      · simp at h
      · next e =>
        cases k with
        | zero => exact e
        | succ k => simpa [Nat.add_assoc, Nat.add_comm 1 k] using ih.mp h k (by omega)
    · intro h
      rw [show check a = none from h 0 (by omega)]
      exact ih.mpr fun k hk => by simpa [Nat.add_assoc, Nat.add_comm 1 k] using h (k + 1) (by omega)

/-- What `firstFailure` answers is the least address that the check refuses, with the check's error. -/
theorem firstFailure_eq_some {check : Nat → Option FatalError} {a n : Nat} {e : FatalError} {bad : Nat}
    (h : firstFailure check a n = some (e, bad)) :
    ∃ k, k < n ∧ bad = a + k ∧ check bad = some e ∧ ∀ j, j < k → check (a + j) = none := by
  induction n generalizing a with
  | zero => simp [firstFailure] at h
  | succ n ih =>
    rw [firstFailure] at h
    split at h
    · next e' he =>
      obtain ⟨rfl, rfl⟩ : e' = e ∧ a = bad := by simpa using h
      exact ⟨0, by omega, rfl, he, by omega⟩
    · next hn =>
      obtain ⟨k, hk, rfl, hc, hj⟩ := ih h
      refine ⟨k + 1, by omega, by omega, by simpa [Nat.add_assoc, Nat.add_comm 1 k] using hc, fun j hj' => ?_⟩
      cases j with
      | zero => exact hn
      | succ j => simpa [Nat.add_assoc, Nat.add_comm 1 j] using hj j (by omega)

/-- If the first address that is refused is the k-th, that is what `firstFailure` answers. -/
theorem firstFailure_of_first {check : Nat → Option FatalError} {a n k : Nat} {e : FatalError} (hk : k < n)
    (hc : check (a + k) = some e) (hj : ∀ j, j < k → check (a + j) = none) :
    firstFailure check a n = some (e, a + k) := by
  induction k generalizing a n with
  | zero =>
    obtain ⟨n, rfl⟩ : ∃ m, n = m + 1 := ⟨n - 1, by omega⟩
    simpa [firstFailure] using by rw [show check a = some e from hc]
  | succ k ih =>
    obtain ⟨n, rfl⟩ : ∃ m, n = m + 1 := ⟨n - 1, by omega⟩
    rw [firstFailure, show check a = none from hj 0 (by omega)]
    have := ih (a := a + 1) (n := n) (by omega) (by simpa [Nat.add_assoc, Nat.add_comm 1 k] using hc)
      fun j hj' => by simpa [Nat.add_assoc, Nat.add_comm 1 j] using hj (j + 1) (by omega)
    simpa [Nat.add_assoc, Nat.add_comm 1 k] using this

theorem firstFailure_checkRead_none {a n : Nat} : firstFailure checkRead a n = none ↔ Readable a n := by
  simp only [firstFailure_eq_none, checkRead, Readable, memSize]
  constructor
  · intro h
    rcases Nat.eq_zero_or_pos n with hn | hn
    · exact .inl hn
    · have := h (n - 1) (by omega)
      split at this
      · simp at this
      · exact .inr (by omega)
  · intro h k hk
    rw [if_neg (by omega)]

/-- A range that cannot be read raises MemoryBounds at its first address above 0xFFF (R55, R278). -/
theorem firstFailure_checkRead_some {a n : Nat} (h : ¬ Readable a n) :
    firstFailure checkRead a n = some (.memoryBounds, max a memSize) := by
  simp only [Readable, memSize, not_or] at h
  have := firstFailure_of_first (check := checkRead) (a := a) (n := n) (k := max a memSize - a) (e := .memoryBounds)
    (by simp only [memSize]; omega) (by simp only [checkRead, memSize]; rw [if_pos (by omega)])
    (fun j hj => by simp only [memSize] at hj; simp only [checkRead]; rw [if_neg (by omega)])
  rwa [show a + (max a memSize - a) = max a memSize by omega] at this

theorem firstFailure_checkWrite_none {p : Params} {a n : Nat} (hn : 0 < n) :
    firstFailure (checkWrite p.fontPolicy) a n = none ↔ Writable p a n := by
  simp only [firstFailure_eq_none, checkWrite, Writable, memSize, fontSize]
  constructor
  · intro h
    have h0 := h 0 hn
    have h1 := h (n - 1) (by omega)
    have hb : ¬ a + (n - 1) > 0xFFF := fun hc => by rw [if_pos hc] at h1; simp at h1
    refine ⟨by omega, ?_⟩
    by_contra hc
    obtain ⟨hw, ha⟩ := not_or.mp hc
    have hf : p.fontPolicy = .fault := by cases hp : p.fontPolicy <;> simp_all
    rw [if_neg (by omega), if_pos ⟨by omega, hf⟩] at h0
    simp at h0
  · intro ⟨h1, h2⟩ k hk
    rw [if_neg (by omega), if_neg]
    rintro ⟨h3, h4⟩
    rcases h2 with h2 | h2
    · simp [h2] at h4
    · omega

/-- A store that begins in the protected font region raises ProtectedWrite at its first address (R56, R278). -/
theorem firstFailure_checkWrite_font {p : Params} {a n : Nat} (hn : 0 < n) (hp : p.fontPolicy = .fault)
    (ha : a < fontSize) : firstFailure (checkWrite p.fontPolicy) a n = some (.protectedWrite, a) := by
  simp only [fontSize] at ha
  refine firstFailure_of_first (k := 0) hn ?_ (by omega)
  simp only [checkWrite, Nat.add_zero]
  rw [if_neg (by omega), if_pos ⟨by omega, hp⟩]

/-- A store that begins outside the protected region and leaves the memory raises MemoryBounds at its first address
above 0xFFF (R56, R278). -/
theorem firstFailure_checkWrite_bounds {p : Params} {a n : Nat} (hp : p.fontPolicy = .write ∨ fontSize ≤ a)
    (h : memSize < a + n) (hn : 0 < n) :
    firstFailure (checkWrite p.fontPolicy) a n = some (.memoryBounds, max a memSize) := by
  simp only [memSize, fontSize] at *
  have := firstFailure_of_first (check := checkWrite p.fontPolicy) (a := a) (n := n) (k := max a 4096 - a)
    (e := .memoryBounds) (by omega) (by simp only [checkWrite]; rw [if_pos (by omega)])
    (fun j hj => by
      simp only [checkWrite]
      rw [if_neg (by omega), if_neg]
      rintro ⟨h3, h4⟩
      rcases hp with hp | hp
      · simp [hp] at h4
      · omega)
  rwa [show a + (max a 4096 - a) = max a 4096 by omega] at this

/-- The errors a store check raises, with the address it raises them at. -/
theorem checkWrite_some {p : FontPolicy} {a : Nat} {e : FatalError} (h : checkWrite p a = some e) :
    (e = .memoryBounds ∧ memSize ≤ a) ∨ (e = .protectedWrite ∧ a < fontSize) := by
  unfold checkWrite at h
  split at h
  · exact .inl ⟨by simpa using h.symm, by simp only [memSize]; omega⟩
  · split at h
    · exact .inr ⟨by simpa using h.symm, by simp only [fontSize]; omega⟩
    · simp at h

/-- The error a read check raises, with the address it raises it at. -/
theorem checkRead_some {a : Nat} {e : FatalError} (h : checkRead a = some e) : e = .memoryBounds ∧ memSize ≤ a := by
  unfold checkRead at h
  split at h
  · exact ⟨by simpa using h.symm, by simp only [memSize]; omega⟩
  · simp at h

/-- Everything a checked instruction can do: complete when every address passes, or raise the first failure. -/
theorem checked_cases (i : Instr) (s : State) (check : Nat → Option FatalError) (a n : Nat) (done : State) :
    (firstFailure check a n = none ∧ checked i s check a n done = .next done) ∨
    (∃ e bad, firstFailure check a n = some (e, bad) ∧
      checked i s check a n done = .next (s.raise i e (some bad))) := by
  unfold checked
  split
  · next e bad h => exact .inr ⟨e, bad, h, rfl⟩
  · next h => exact .inl ⟨h, rfl⟩

/-- A checked store changes no byte but the ones it stores to, whether it completes or raises an error (R60, R275). -/
theorem bytesKept_of_checked_writeBytes {i : Instr} {s t : State} {check : Nat → Option FatalError} {a : Nat}
    {bs : List Byte} (h : checked i s check a bs.length (s.writeBytes a bs) = .next t) : BytesKept a bs.length s t := by
  rcases checked_cases i s check a bs.length (s.writeBytes a bs) with ⟨-, e⟩ | ⟨e, bad, -, he⟩
  · rw [e] at h
    cases h
    exact fun b hb => s.byte_writeBytes_outside hb
  · rw [he] at h
    cases h
    exact fun _ _ => rfl

end Sys2Proof.Machine
end

