-- ==== Sys2Proof/Laws/Decode.lean ====
section
/-! SUPPORT. The fields of a packed word (30_encoding.md R70, R72), from which the round trips follow. -/

namespace Sys2Proof

theorem toNat_packAddr {c : Nat} (hc : c < 16) (nnn : Addr12) : (packAddr c nnn).toNat = c * 4096 + nnn.toNat := by
  have := nnn.isLt
  simp only [packAddr, BitVec.toNat_ofNat]
  omega

theorem toNat_packXNN {c : Nat} (hc : c < 16) (x : Reg) (nn : Byte) :
    (packXNN c x nn).toNat = c * 4096 + x.val * 256 + nn.toNat := by
  have := nn.isLt
  have := x.isLt
  simp only [packXNN, BitVec.toNat_ofNat]
  omega

theorem toNat_packXYN {c : Nat} (hc : c < 16) (x y : Reg) (n : Fin 16) :
    (packXYN c x y n).toNat = c * 4096 + x.val * 256 + y.val * 16 + n.val := by
  have := x.isLt
  have := y.isLt
  have := n.isLt
  simp only [packXYN, BitVec.toNat_ofNat]
  omega

/-- Two words with the same number are the same. -/
theorem word_ext {v w : Word} (h : v.toNat = w.toNat) : v = w := BitVec.eq_of_toNat_eq h

theorem val_fieldX (w : Word) : (fieldX w).val = w.toNat / 256 % 16 := rfl

theorem val_fieldY (w : Word) : (fieldY w).val = w.toNat / 16 % 16 := rfl

theorem val_fieldN (w : Word) : (fieldN w).val = w.toNat % 16 := rfl

theorem toNat_fieldNN (w : Word) : (fieldNN w).toNat = w.toNat % 256 := by simp [fieldNN]

theorem toNat_fieldNNN (w : Word) : (fieldNNN w).toNat = w.toNat % 4096 := by simp [fieldNNN]

@[simp] theorem wordOfBytes_highByte_lowByte (w : Word) : wordOfBytes (highByte w) (lowByte w) = w := by
  apply word_ext
  have := w.isLt
  simp only [wordOfBytes, highByte, lowByte, BitVec.toNat_ofNat]
  omega

/-! The fields of a packed word are what was packed. -/

theorem fieldC_packAddr {c : Nat} (hc : c < 16) (nnn : Addr12) : fieldC (packAddr c nnn) = c := by
  have := nnn.isLt
  rw [fieldC, toNat_packAddr hc]
  omega

theorem fieldNNN_packAddr {c : Nat} (hc : c < 16) (nnn : Addr12) : fieldNNN (packAddr c nnn) = nnn := by
  have := nnn.isLt
  apply BitVec.eq_of_toNat_eq
  rw [toNat_fieldNNN, toNat_packAddr hc]
  omega

theorem fieldC_packXNN {c : Nat} (hc : c < 16) (x : Reg) (nn : Byte) : fieldC (packXNN c x nn) = c := by
  have := nn.isLt
  have := x.isLt
  rw [fieldC, toNat_packXNN hc]
  omega

theorem fieldX_packXNN {c : Nat} (hc : c < 16) (x : Reg) (nn : Byte) : fieldX (packXNN c x nn) = x := by
  have := nn.isLt
  have := x.isLt
  apply Fin.ext
  rw [val_fieldX, toNat_packXNN hc]
  omega

theorem fieldNN_packXNN {c : Nat} (hc : c < 16) (x : Reg) (nn : Byte) : fieldNN (packXNN c x nn) = nn := by
  have := nn.isLt
  have := x.isLt
  apply BitVec.eq_of_toNat_eq
  rw [toNat_fieldNN, toNat_packXNN hc]
  omega

theorem low_packXNN {c : Nat} (hc : c < 16) (x : Reg) (nn : Byte) : (packXNN c x nn).toNat % 256 = nn.toNat := by
  have := nn.isLt
  rw [toNat_packXNN hc]
  omega

theorem fieldC_packXYN {c : Nat} (hc : c < 16) (x y : Reg) (n : Fin 16) : fieldC (packXYN c x y n) = c := by
  have := x.isLt
  have := y.isLt
  have := n.isLt
  rw [fieldC, toNat_packXYN hc]
  omega

theorem fieldX_packXYN {c : Nat} (hc : c < 16) (x y : Reg) (n : Fin 16) : fieldX (packXYN c x y n) = x := by
  have := x.isLt
  have := y.isLt
  have := n.isLt
  apply Fin.ext
  rw [val_fieldX, toNat_packXYN hc]
  omega

theorem fieldY_packXYN {c : Nat} (hc : c < 16) (x y : Reg) (n : Fin 16) : fieldY (packXYN c x y n) = y := by
  have := x.isLt
  have := y.isLt
  have := n.isLt
  apply Fin.ext
  rw [val_fieldY, toNat_packXYN hc]
  omega

theorem fieldN_packXYN {c : Nat} (hc : c < 16) (x y : Reg) (n : Fin 16) : fieldN (packXYN c x y n) = n := by
  have := n.isLt
  apply Fin.ext
  rw [val_fieldN, toNat_packXYN hc]
  omega

theorem low_packXYN {c : Nat} (hc : c < 16) (x y : Reg) (n : Fin 16) : (packXYN c x y n).toNat % 16 = n.val := by
  have := n.isLt
  rw [toNat_packXYN hc]
  omega

/-! A word with given fields is the packed word. -/

theorem packAddr_fields {w : Word} {c : Nat} (h : fieldC w = c) : packAddr c (fieldNNN w) = w := by
  have := w.isLt
  have hc : c < 16 := by rw [← h, fieldC]; omega
  apply word_ext
  rw [toNat_packAddr hc, toNat_fieldNNN]
  rw [fieldC] at h
  omega

theorem packXNN_fields {w : Word} {c : Nat} (h : fieldC w = c) {nn : Byte} (hn : w.toNat % 256 = nn.toNat) :
    packXNN c (fieldX w) nn = w := by
  have := w.isLt
  have hc : c < 16 := by rw [← h, fieldC]; omega
  apply word_ext
  rw [toNat_packXNN hc, val_fieldX, ← hn]
  rw [fieldC] at h
  omega

theorem packXYN_fields {w : Word} {c : Nat} (h : fieldC w = c) {n : Fin 16} (hn : w.toNat % 16 = n.val) :
    packXYN c (fieldX w) (fieldY w) n = w := by
  have := w.isLt
  have hc : c < 16 := by rw [← h, fieldC]; omega
  apply word_ext
  rw [toNat_packXYN hc, val_fieldX, val_fieldY, ← hn]
  rw [fieldC] at h
  omega

/-- The mask of the formats ADDR, XNN and XYN keeps the class. -/
theorem and_F000 (w : Word) : w &&& 0xF000 = BitVec.ofNat 16 (w.toNat / 4096 * 4096) := by
  apply BitVec.eq_of_getLsbD_eq
  intro i hi
  rw [BitVec.getLsbD_and, BitVec.getLsbD_ofNat, show (4096 : Nat) = 2 ^ 12 from rfl, Nat.testBit_mul_two_pow,
    Nat.testBit_div_two_pow]
  interval_cases i <;> simp [BitVec.getLsbD] <;> intro <;> decide

/-- A mask that keeps the class and the low `k` bits. -/
theorem and_class_low (w : Word) {k : Nat} (hk : k = 4 ∨ k = 8) :
    w &&& BitVec.ofNat 16 (0xF000 + (2 ^ k - 1)) = BitVec.ofNat 16 (w.toNat / 4096 * 4096 + w.toNat % 2 ^ k) := by
  apply BitVec.eq_of_getLsbD_eq
  intro i hi
  have lt : w.toNat % 2 ^ k < 2 ^ 12 := by rcases hk with rfl | rfl <;> omega
  rw [BitVec.getLsbD_and, BitVec.getLsbD_ofNat, BitVec.getLsbD_ofNat, show (4096 : Nat) = 2 ^ 12 from rfl,
    Nat.mul_comm, Nat.testBit_two_pow_mul_add _ lt]
  simp only [Nat.testBit_div_two_pow, Nat.testBit_mod_two_pow]
  rcases hk with rfl | rfl <;> interval_cases i <;> simp [BitVec.getLsbD] <;> intro <;> decide

/-- The mask of the format XYS keeps the class and the low nibble. -/
theorem and_F00F (w : Word) : w &&& 0xF00F = BitVec.ofNat 16 (w.toNat / 4096 * 4096 + w.toNat % 16) :=
  and_class_low w (.inl rfl)

/-- The mask of the format XS keeps the class and the low byte. -/
theorem and_F0FF (w : Word) : w &&& 0xF0FF = BitVec.ofNat 16 (w.toNat / 4096 * 4096 + w.toNat % 256) :=
  and_class_low w (.inr rfl)

/-- What a row of the formats ADDR, XNN or XYN says of a word it admits. -/
theorem fieldC_of_F000 {w : Word} {c : Nat} (hc : c < 16) (h : w &&& 0xF000 = BitVec.ofNat 16 (c * 4096)) :
    fieldC w = c := by
  have hw := w.isLt
  have := congrArg BitVec.toNat ((and_F000 w).symm.trans h)
  simp only [BitVec.toNat_ofNat] at this
  rw [fieldC]
  omega

/-- What a row of the format XYS says of a word it admits. -/
theorem fields_of_F00F {w : Word} {c n : Nat} (hc : c < 16) (hn : n < 16)
    (h : w &&& 0xF00F = BitVec.ofNat 16 (c * 4096 + n)) : fieldC w = c ∧ w.toNat % 16 = n := by
  have hw := w.isLt
  have := congrArg BitVec.toNat ((and_F00F w).symm.trans h)
  simp only [BitVec.toNat_ofNat] at this
  rw [fieldC]
  omega

/-- What a row of the format XS says of a word it admits. -/
theorem fields_of_F0FF {w : Word} {c n : Nat} (hc : c < 16) (hn : n < 256)
    (h : w &&& 0xF0FF = BitVec.ofNat 16 (c * 4096 + n)) : fieldC w = c ∧ w.toNat % 256 = n := by
  have hw := w.isLt
  have := congrArg BitVec.toNat ((and_F0FF w).symm.trans h)
  simp only [BitVec.toNat_ofNat] at this
  rw [fieldC]
  omega

theorem admits_packAddr {c : Nat} (hc : c < 16) (nnn : Addr12) :
    Row.admits ⟨0xF000, BitVec.ofNat 16 (c * 4096)⟩ (packAddr c nnn) = true := by
  have := nnn.isLt
  simp only [Row.admits, beq_iff_eq, and_F000, toNat_packAddr hc]
  exact congrArg (BitVec.ofNat 16) (by omega)

theorem admits_packXNN {c : Nat} (hc : c < 16) (x : Reg) (nn : Byte) :
    Row.admits ⟨0xF000, BitVec.ofNat 16 (c * 4096)⟩ (packXNN c x nn) = true := by
  have := nn.isLt
  have := x.isLt
  simp only [Row.admits, beq_iff_eq, and_F000, toNat_packXNN hc]
  exact congrArg (BitVec.ofNat 16) (by omega)

theorem admits_packXYN {c : Nat} (hc : c < 16) (x y : Reg) (n : Fin 16) :
    Row.admits ⟨0xF000, BitVec.ofNat 16 (c * 4096)⟩ (packXYN c x y n) = true := by
  have := x.isLt
  have := y.isLt
  have := n.isLt
  simp only [Row.admits, beq_iff_eq, and_F000, toNat_packXYN hc]
  exact congrArg (BitVec.ofNat 16) (by omega)

theorem admits_packXYS {c : Nat} (hc : c < 16) (x y : Reg) (n : Fin 16) :
    Row.admits ⟨0xF00F, BitVec.ofNat 16 (c * 4096 + n.val)⟩ (packXYN c x y n) = true := by
  have := x.isLt
  have := y.isLt
  have := n.isLt
  simp only [Row.admits, beq_iff_eq, and_F00F, toNat_packXYN hc]
  exact congrArg (BitVec.ofNat 16) (by omega)

theorem admits_packXS {c : Nat} (hc : c < 16) (x : Reg) (nn : Byte) :
    Row.admits ⟨0xF0FF, BitVec.ofNat 16 (c * 4096 + nn.toNat)⟩ (packXNN c x nn) = true := by
  have := nn.isLt
  have := x.isLt
  simp only [Row.admits, beq_iff_eq, and_F0FF, toNat_packXNN hc]
  exact congrArg (BitVec.ofNat 16) (by omega)

end Sys2Proof
end

