-- ==== Sys2Proof/Laws/Display.lean ====
section
/-! SUPPORT. The loops of `xorBlit` (40_display.md R102), pixel by pixel. No pixel is touched twice (R106), so the
result is one XOR per covered pixel, and the collision is a pixel that went from on to off. -/

namespace Sys2Proof.Machine

theorem Display.pixel_setPixel (d : Display) (X : Fin 64) (Y : Fin 32) (b : Bool) (X' : Fin 64) (Y' : Fin 32) :
    (d.setPixel X Y b).pixel X' Y' = if X' = X ∧ Y' = Y then b else d.pixel X' Y' := by
  unfold Display.pixel Display.setPixel
  by_cases hY : Y' = Y
  · subst hY
    by_cases hX : X' = X
    · subst hX; simp
    · have : X.val ≠ X'.val := fun e => hX (Fin.ext e.symm)
      simp [hX, this]
  · have : Y.val ≠ Y'.val := fun e => hY (Fin.ext e.symm)
    simp [hY, this]

/-- Two displays with the same pixels are the same. -/
theorem Display.ext_pixel {d e : Display} (h : ∀ X Y, d.pixel X Y = e.pixel X Y) : d = e := by
  apply Vector.ext
  intro y hy
  apply Vector.ext
  intro x hx
  exact h ⟨x, hx⟩ ⟨y, hy⟩

@[simp] theorem pixel_blankDisplay (X : Fin 64) (Y : Fin 32) : blankDisplay.pixel X Y = false := by
  simp [blankDisplay, Display.pixel]

/-- One turn of the loop, at a given pixel. -/
abbrev Turn := Fin 64 × Fin 32 × Bool

/-- XOR one pixel and note a collision. -/
def turn (acc : Display × Bool) (t : Turn) : Display × Bool :=
  (acc.1.setPixel t.1 t.2.1 (acc.1.pixel t.1 t.2.1 ^^ t.2.2), acc.2 || (t.2.2 && acc.1.pixel t.1 t.2.1))

/-- The turns of one row. -/
def rowTurns (px py : Byte) (r : Nat) (bits : Byte) (b : Nat) : Nat → List Turn
  | 0 => []
  | n + 1 => (column px b, row py r, spriteBit bits b) :: rowTurns px py r bits (b + 1) n

/-- The turns of a sprite. -/
def turns (px py : Byte) (r : Nat) : List Byte → List Turn
  | [] => []
  | bits :: rest => rowTurns px py r bits 0 8 ++ turns px py (r + 1) rest

theorem blitRow_eq_foldl (px py : Byte) (r : Nat) (bits : Byte) (b n : Nat) (acc : Display × Bool) :
    blitRow px py r bits b n acc = (rowTurns px py r bits b n).foldl turn acc := by
  induction n generalizing b acc with
  | zero => rfl
  | succ n ih => exact ih _ _

theorem blitRows_eq_foldl (px py : Byte) (r : Nat) (rows : List Byte) (acc : Display × Bool) :
    blitRows px py r rows acc = (turns px py r rows).foldl turn acc := by
  induction rows generalizing r acc with
  | nil => rfl
  | cons bits rest ih => rw [blitRows, turns, List.foldl_append, ← blitRow_eq_foldl, ih]

/-- No two turns are at the same pixel. -/
abbrev distinctTurns (ts : List Turn) : Prop := ts.Pairwise fun t u => ¬ (t.1 = u.1 ∧ t.2.1 = u.2.1)

theorem pixel_foldl_turn {ts : List Turn} (hd : distinctTurns ts) (acc : Display × Bool) (X : Fin 64) (Y : Fin 32) :
    (ts.foldl turn acc).1.pixel X Y = (acc.1.pixel X Y ^^ decide ((X, Y, true) ∈ ts)) := by
  induction ts generalizing acc with
  | nil => simp
  | cons t ts ih =>
    obtain ⟨x, y, b⟩ := t
    obtain ⟨hh, ht⟩ := List.pairwise_cons.mp hd
    rw [List.foldl_cons, ih ht, turn, Display.pixel_setPixel]
    by_cases h : X = x ∧ Y = y
    · obtain ⟨rfl, rfl⟩ := h
      have : (X, Y, true) ∉ ts := fun hm => hh _ hm ⟨rfl, rfl⟩
      cases b <;> simp [this]
    · have : (X, Y, true) ≠ (x, y, b) := fun e => h (by simp at e; exact ⟨e.1, e.2.1⟩)
      simp [h, this]

theorem collided_foldl_turn {ts : List Turn} (hd : distinctTurns ts) (acc : Display × Bool) :
    (ts.foldl turn acc).2 = true ↔ acc.2 = true ∨ ∃ X Y, (X, Y, true) ∈ ts ∧ acc.1.pixel X Y = true := by
  induction ts generalizing acc with
  | nil => simp
  | cons t ts ih =>
    obtain ⟨x, y, b⟩ := t
    obtain ⟨hh, ht⟩ := List.pairwise_cons.mp hd
    rw [List.foldl_cons, ih ht]
    have keep : ∀ X Y, (X, Y, true) ∈ ts → (turn acc (x, y, b)).1.pixel X Y = acc.1.pixel X Y := by
      intro X Y hm
      rw [turn, Display.pixel_setPixel, if_neg]
      rintro ⟨rfl, rfl⟩
      exact hh _ hm ⟨rfl, rfl⟩
    constructor
    · rintro (h | ⟨X, Y, hm, hp⟩)
      · simp only [turn, Bool.or_eq_true, Bool.and_eq_true] at h
        rcases h with h | ⟨rfl, h⟩
        · exact .inl h
        · exact .inr ⟨x, y, by simp, h⟩
      · exact .inr ⟨X, Y, by simp [hm], by rwa [keep X Y hm] at hp⟩
    · rintro (h | ⟨X, Y, hm, hp⟩)
      · exact .inl (by simp [turn, h])
      · rcases List.mem_cons.mp hm with e | hm
        · simp only [Prod.mk.injEq] at e
          obtain ⟨rfl, rfl, rfl⟩ := e
          exact .inl (by simp [turn, hp])
        · exact .inr ⟨X, Y, hm, by rwa [keep X Y hm]⟩

theorem column_inj {px : Byte} {b c : Nat} (hb : b < 8) (hc : c < 8) (h : column px b = column px c) : b = c := by
  have := congrArg Fin.val h
  simp only [column, Fin.val_ofNat] at this
  omega

theorem row_inj {py : Byte} {r q : Nat} (hr : r < 32) (hq : q < 32) (h : row py r = row py q) : r = q := by
  have := congrArg Fin.val h
  simp only [row, Fin.val_ofNat] at this
  omega

theorem mem_rowTurns {px py : Byte} {r : Nat} {bits : Byte} {b n : Nat} {t : Turn} :
    t ∈ rowTurns px py r bits b n ↔
      ∃ k, k < n ∧ t = (column px (b + k), row py r, spriteBit bits (b + k)) := by
  induction n generalizing b with
  | zero => simp [rowTurns]
  | succ n ih =>
    rw [rowTurns, List.mem_cons, ih]
    constructor
    · rintro (rfl | ⟨k, hk, rfl⟩)
      · exact ⟨0, by omega, rfl⟩
      · exact ⟨k + 1, by omega, by simp [Nat.add_assoc, Nat.add_comm 1 k]⟩
    · rintro ⟨k, hk, rfl⟩
      cases k with
      | zero => exact .inl rfl
      | succ k => exact .inr ⟨k, by omega, by simp [Nat.add_assoc, Nat.add_comm 1 k]⟩

theorem mem_turns {px py : Byte} {r : Nat} {rows : List Byte} {t : Turn} :
    t ∈ turns px py r rows ↔
      ∃ k b, ∃ h : k < rows.length, b < 8 ∧ t = (column px b, row py (r + k), spriteBit rows[k] b) := by
  induction rows generalizing r with
  | nil => simp [turns]
  | cons bits rest ih =>
    rw [turns, List.mem_append, mem_rowTurns, ih]
    constructor
    · rintro (⟨b, hb, rfl⟩ | ⟨k, b, hk, hb, rfl⟩)
      · exact ⟨0, b, by simp, hb, by simp⟩
      · exact ⟨k + 1, b, by simpa using hk, hb, by simp [Nat.add_assoc, Nat.add_comm 1 k]⟩
    · rintro ⟨k, b, hk, hb, rfl⟩
      cases k with
      | zero => exact .inl ⟨b, hb, by simp⟩
      | succ k => exact .inr ⟨k, b, by simpa using hk, hb, by simp [Nat.add_assoc, Nat.add_comm 1 k]⟩

theorem distinct_rowTurns (px py : Byte) (r : Nat) (bits : Byte) {b n : Nat} (h : b + n ≤ 8) :
    distinctTurns (rowTurns px py r bits b n) := by
  induction n generalizing b with
  | zero => exact List.Pairwise.nil
  | succ n ih =>
    refine List.pairwise_cons.mpr ⟨fun t ht => ?_, ih (by omega)⟩
    obtain ⟨k, hk, rfl⟩ := mem_rowTurns.mp ht
    rintro ⟨e, -⟩
    have := column_inj (by omega) (by omega) e
    omega

/-- R106: within one sprite no pixel is touched twice. -/
theorem distinct_turns (px py : Byte) {r : Nat} {rows : List Byte} (h : r + rows.length ≤ 32) :
    distinctTurns (turns px py r rows) := by
  induction rows generalizing r with
  | nil => exact List.Pairwise.nil
  | cons bits rest ih =>
    simp only [List.length_cons] at h
    refine List.pairwise_append.mpr ⟨distinct_rowTurns px py r bits (by omega), ih (by omega), fun t ht u hu => ?_⟩
    obtain ⟨b, hb, rfl⟩ := mem_rowTurns.mp ht
    obtain ⟨k, c, hk, hc, rfl⟩ := mem_turns.mp hu
    rintro ⟨-, e⟩
    have := row_inj (by omega) (by omega) e
    omega

/-- The set bits of a sprite drawn at `(px, py)` that fall on the pixel `(X, Y)`. -/
def Covers (px py : Byte) (rows : List Byte) (X : Fin 64) (Y : Fin 32) : Prop :=
  ∃ r b, ∃ h : r < rows.length, b < 8 ∧ X = column px b ∧ Y = row py r ∧ spriteBit rows[r] b = true

theorem mem_turns_iff_covers {px py : Byte} {rows : List Byte} {X : Fin 64} {Y : Fin 32} :
    (X, Y, true) ∈ turns px py 0 rows ↔ Covers px py rows X Y := by
  rw [mem_turns]
  constructor
  · rintro ⟨r, b, hr, hb, e⟩
    simp only [Prod.mk.injEq, Nat.zero_add] at e
    exact ⟨r, b, hr, hb, e.1, e.2.1, e.2.2.symm⟩
  · rintro ⟨r, b, hr, hb, rfl, rfl, e⟩
    exact ⟨r, b, hr, hb, by simp [e]⟩

/-- A pixel changes exactly where a set bit of the sprite falls on it (R102). -/
theorem pixel_xorBlit (d : Display) (px py : Byte) {rows : List Byte} (h : rows.length ≤ 32) (X : Fin 64) (Y : Fin 32) :
    (xorBlit d px py rows).1.pixel X Y ≠ d.pixel X Y ↔ Covers px py rows X Y := by
  rw [xorBlit, blitRows_eq_foldl, pixel_foldl_turn (distinct_turns px py (by omega)), ← mem_turns_iff_covers]
  by_cases hm : (X, Y, true) ∈ turns px py 0 rows <;> simp [hm]

/-- The collision is a set bit of the sprite falling on a pixel that was on (R102). -/
theorem collided_xorBlit (d : Display) (px py : Byte) {rows : List Byte} (h : rows.length ≤ 32) :
    (xorBlit d px py rows).2 = true ↔ ∃ X Y, Covers px py rows X Y ∧ d.pixel X Y = true := by
  rw [xorBlit, blitRows_eq_foldl, collided_foldl_turn (distinct_turns px py (by omega))]
  simp [mem_turns_iff_covers]

end Sys2Proof.Machine
end

