-- ==== Sys2Proof/Laws/Flags.lean ====
section
/-! SUPPORT. The flag and result writes of 43_alu.md R161, read register by register. -/

namespace Sys2Proof.Machine

/-- The value a source register has when the result is computed: VF has already been overwritten by the flag under
`sequential` (R161). -/
def sourceAfterFlag (s : State) (flag : Byte) (r : Reg) : Byte :=
  if s.cfg.aliasOrder = .sequential ∧ r = VF then flag else s.reg r

/-- Everything the flag and result writes do to the registers. -/
theorem reg_flagThenResult (s : State) (x y : Reg) (flag result : Byte → Byte → Byte) (r : Reg) :
    (flagThenResult s x y flag result).reg r =
      if r = x then
        result (sourceAfterFlag s (flag (s.reg x) (s.reg y)) x) (sourceAfterFlag s (flag (s.reg x) (s.reg y)) y)
      else if r = VF then flag (s.reg x) (s.reg y) else s.reg r := by
  unfold flagThenResult sourceAfterFlag
  cases h : s.cfg.aliasOrder <;> simp

/-- The flag and result writes touch nothing but the registers. -/
theorem flagThenResult_eq (s : State) (x y : Reg) (flag result : Byte → Byte → Byte) :
    flagThenResult s x y flag result = { s with v := (flagThenResult s x y flag result).v } := by
  unfold flagThenResult
  cases s.cfg.aliasOrder <;> rfl

end Sys2Proof.Machine
end

