-- ==== Sys2Proof/Laws/PerInstr.lean ====
section
/-! SUPPORT. Statements made for every instruction, one lemma per constructor. `EncodesInRow`: the encoder's word lies
in the instruction's row of the opcode table (30_encoding.md R75, R76). -/

namespace Sys2Proof.Laws.EncodesInRow

/-- The word of `i` matches the row of `i`. -/
def Statement (i : Instr) : Prop := i.row.admits (encode i) = true

theorem cls : Statement .cls := rfl
theorem ret : Statement .ret := rfl
theorem jp (nnn : Addr12) : Statement (.jp nnn) := admits_packAddr (c := 0x1) (by decide) nnn
theorem call (nnn : Addr12) : Statement (.call nnn) := admits_packAddr (c := 0x2) (by decide) nnn
theorem seImm (x : Reg) (nn : Byte) : Statement (.seImm x nn) := admits_packXNN (c := 0x3) (by decide) x nn
theorem sneImm (x : Reg) (nn : Byte) : Statement (.sneImm x nn) := admits_packXNN (c := 0x4) (by decide) x nn
theorem seReg (x y : Reg) : Statement (.seReg x y) := admits_packXYS (c := 0x5) (by decide) x y 0x0
theorem ldImm (x : Reg) (nn : Byte) : Statement (.ldImm x nn) := admits_packXNN (c := 0x6) (by decide) x nn
theorem addImm (x : Reg) (nn : Byte) : Statement (.addImm x nn) := admits_packXNN (c := 0x7) (by decide) x nn
theorem ldReg (x y : Reg) : Statement (.ldReg x y) := admits_packXYS (c := 0x8) (by decide) x y 0x0
theorem orReg (x y : Reg) : Statement (.orReg x y) := admits_packXYS (c := 0x8) (by decide) x y 0x1
theorem andReg (x y : Reg) : Statement (.andReg x y) := admits_packXYS (c := 0x8) (by decide) x y 0x2
theorem xorReg (x y : Reg) : Statement (.xorReg x y) := admits_packXYS (c := 0x8) (by decide) x y 0x3
theorem addReg (x y : Reg) : Statement (.addReg x y) := admits_packXYS (c := 0x8) (by decide) x y 0x4
theorem sub (x y : Reg) : Statement (.sub x y) := admits_packXYS (c := 0x8) (by decide) x y 0x5
theorem shr (x y : Reg) : Statement (.shr x y) := admits_packXYS (c := 0x8) (by decide) x y 0x6
theorem subn (x y : Reg) : Statement (.subn x y) := admits_packXYS (c := 0x8) (by decide) x y 0x7
theorem shl (x y : Reg) : Statement (.shl x y) := admits_packXYS (c := 0x8) (by decide) x y 0xE
theorem sneReg (x y : Reg) : Statement (.sneReg x y) := admits_packXYS (c := 0x9) (by decide) x y 0x0
theorem ldI (nnn : Addr12) : Statement (.ldI nnn) := admits_packAddr (c := 0xA) (by decide) nnn
theorem jpV0 (nnn : Addr12) : Statement (.jpV0 nnn) := admits_packAddr (c := 0xB) (by decide) nnn
theorem rnd (x : Reg) (nn : Byte) : Statement (.rnd x nn) := admits_packXNN (c := 0xC) (by decide) x nn
theorem drw (x y : Reg) (n : Fin 16) : Statement (.drw x y n) := admits_packXYN (c := 0xD) (by decide) x y n
theorem skp (x : Reg) : Statement (.skp x) := admits_packXS (c := 0xE) (by decide) x 0x9E
theorem sknp (x : Reg) : Statement (.sknp x) := admits_packXS (c := 0xE) (by decide) x 0xA1
theorem ldVxDt (x : Reg) : Statement (.ldVxDt x) := admits_packXS (c := 0xF) (by decide) x 0x07
theorem ldVxK (x : Reg) : Statement (.ldVxK x) := admits_packXS (c := 0xF) (by decide) x 0x0A
theorem ldDtVx (x : Reg) : Statement (.ldDtVx x) := admits_packXS (c := 0xF) (by decide) x 0x15
theorem ldStVx (x : Reg) : Statement (.ldStVx x) := admits_packXS (c := 0xF) (by decide) x 0x18
theorem addI (x : Reg) : Statement (.addI x) := admits_packXS (c := 0xF) (by decide) x 0x1E
theorem ldF (x : Reg) : Statement (.ldF x) := admits_packXS (c := 0xF) (by decide) x 0x29
theorem ldB (x : Reg) : Statement (.ldB x) := admits_packXS (c := 0xF) (by decide) x 0x33
theorem storeRegs (x : Reg) : Statement (.storeRegs x) := admits_packXS (c := 0xF) (by decide) x 0x55
theorem loadRegs (x : Reg) : Statement (.loadRegs x) := admits_packXS (c := 0xF) (by decide) x 0x65

/-- Every instruction's word matches its row. -/
theorem every : ∀ i, Statement i
  | .cls => cls
  | .ret => ret
  | .jp nnn => jp nnn
  | .call nnn => call nnn
  | .seImm x nn => seImm x nn
  | .sneImm x nn => sneImm x nn
  | .seReg x y => seReg x y
  | .ldImm x nn => ldImm x nn
  | .addImm x nn => addImm x nn
  | .ldReg x y => ldReg x y
  | .orReg x y => orReg x y
  | .andReg x y => andReg x y
  | .xorReg x y => xorReg x y
  | .addReg x y => addReg x y
  | .sub x y => sub x y
  | .shr x y => shr x y
  | .subn x y => subn x y
  | .shl x y => shl x y
  | .sneReg x y => sneReg x y
  | .ldI nnn => ldI nnn
  | .jpV0 nnn => jpV0 nnn
  | .rnd x nn => rnd x nn
  | .drw x y n => drw x y n
  | .skp x => skp x
  | .sknp x => sknp x
  | .ldVxDt x => ldVxDt x
  | .ldVxK x => ldVxK x
  | .ldDtVx x => ldDtVx x
  | .ldStVx x => ldStVx x
  | .addI x => addI x
  | .ldF x => ldF x
  | .ldB x => ldB x
  | .storeRegs x => storeRegs x
  | .loadRegs x => loadRegs x

end Sys2Proof.Laws.EncodesInRow
end

