-- ==== Sys2Proof/Laws/Step.lean ====
section
/-! SUPPORT. What one step and one move can do, said once (30_encoding.md R73; 60_exceptions.md R290). -/

namespace Sys2Proof.Machine

/-- Everything `step` can do. -/
theorem step_cases {s t : State} (h : step s = .next t) :
    (s.mode ≠ .running ∧ t = s) ∨
    (s.mode = .running ∧ ¬ Readable s.pc.toNat 2 ∧ t = s.raiseFetch .memoryBounds (max s.pc.toNat memSize)) ∨
    (s.mode = .running ∧ Readable s.pc.toNat 2 ∧ ∃ i, decodeWord (s.wordAt s.pc.toNat) = some i ∧
      exec i s.skip = .next t) ∨
    (s.mode = .running ∧ Readable s.pc.toNat 2 ∧ decodeWord (s.wordAt s.pc.toNat) = none ∧
      t = s.skip.report s.pc (s.wordAt s.pc.toNat)) := by
  unfold step at h
  split at h
  · next hm =>
    by_cases hr : Readable s.pc.toNat 2
    · rw [State.fetchExecute, firstFailure_checkRead_none.mpr hr] at h
      simp only [State.execute] at h
      split at h
      · next i hi => exact .inr (.inr (.inl ⟨hm, hr, i, hi, h⟩))
      · next hn => exact .inr (.inr (.inr ⟨hm, hr, hn, by simpa using h.symm⟩))
    · rw [State.fetchExecute, firstFailure_checkRead_some hr] at h
      exact .inr (.inl ⟨hm, hr, by simpa using h.symm⟩)
  · next hm => exact .inl ⟨by simp [hm], by simpa using h.symm⟩
  · next hm => exact .inl ⟨by simp [hm], by simpa using h.symm⟩

/-- A step of a running core whose fetch stays in the memory executes the word at PC. -/
theorem step_eq_execute {s : State} (hm : s.mode = .running) (hr : Readable s.pc.toNat 2) :
    step s = s.execute (s.wordAt s.pc.toNat) := by
  rw [step, hm]
  simp only [State.fetchExecute, firstFailure_checkRead_none.mpr hr]

/-- A step of a running core whose fetch leaves the memory raises MemoryBounds. -/
theorem step_eq_raiseFetch {s : State} (hm : s.mode = .running) (hr : ¬ Readable s.pc.toNat 2) :
    step s = .next (s.raiseFetch .memoryBounds (max s.pc.toNat memSize)) := by
  rw [step, hm]
  simp only [State.fetchExecute, firstFailure_checkRead_some hr]

/-- A core that is not running does not step. -/
theorem step_eq_self {s : State} (hm : s.mode ≠ .running) : step s = .next s := by
  unfold step
  split
  · next h => exact absurd h hm
  · rfl
  · rfl

/-- The instructions that can raise an error, with the errors they raise and what these record (R271, R274). -/
def Raises (i : Instr) (s : State) (e : FatalError) (d : Option Nat) : Prop :=
  (i = .ret ∧ e = .stackUnderflow ∧ d = none) ∨
  (∃ nnn, i = .call nnn ∧ e = .stackOverflow ∧ d = none) ∨
  ((∃ x y n, i = .drw x y n) ∨ (∃ x, i = .ldB x) ∨ (∃ x, i = .storeRegs x) ∨ (∃ x, i = .loadRegs x)) ∧
    (∃ a, d = some a ∧ ((e = .memoryBounds ∧ memSize ≤ a) ∨ (e = .protectedWrite ∧ a < fontSize))) ∨
  ((∃ x, i = .skp x ∧ d = some (s.reg x).toNat) ∨ (∃ x, i = .sknp x ∧ d = some (s.reg x).toNat)) ∧
    e = .keyIndexRange ∧ ∃ k, d = some k ∧ 0xF < k

theorem keyAt_eq {s : State} {b : Byte} (h : b.toNat < 16) : s.keyAt b = some (s.keys[b.toNat]) := by
  simp [State.keyAt, h]

theorem keyAt_none {s : State} {b : Byte} (h : 16 ≤ b.toNat) : s.keyAt b = none := by
  simpa [State.keyAt] using h

/-- A skip keeps the mode. -/
theorem mode_skipIf (s : State) (c : Bool) : (s.skipIf c).mode = s.mode := by
  cases c <;> rfl

/-- Everything `exec` can do with the mode: raise an error and change nothing else, suspend, or keep it. -/
theorem exec_cases {i : Instr} {s t : State} (h : exec i s = .next t) :
    (∃ e d, Raises i s e d ∧ t = s.raise i e d) ∨ (∃ x, i = .ldVxK x ∧ t = { s with mode := .awaitingKey x }) ∨
    t.mode = s.mode := by
  have keyCase : ∀ (x : Reg) (level : Bool), (i = .skp x ∨ i = .sknp x) → skipOnKey i x level s = .next t →
      (∃ e d, Raises i s e d ∧ t = s.raise i e d) ∨ t.mode = s.mode := by
    intro x level hi h
    rcases Nat.lt_or_ge (s.reg x).toNat 16 with hk | hk
    · rw [skipOnKey, keyAt_eq hk] at h
      simp only [Host.Outcome.next.injEq] at h
      exact .inr (h ▸ mode_skipIf _ _)
    · rw [skipOnKey, keyAt_none hk] at h
      simp only [Host.Outcome.next.injEq] at h
      refine .inl ⟨.keyIndexRange, some (s.reg x).toNat, .inr (.inr (.inr ⟨?_, rfl, _, rfl, by omega⟩)), h.symm⟩
      exact hi.imp (fun e => ⟨x, e, rfl⟩) (fun e => ⟨x, e, rfl⟩)
  have checkedCase : ∀ (check : Nat → Option FatalError) (a n : Nat) (done : State),
      ((∃ x y n, i = .drw x y n) ∨ (∃ x, i = .ldB x) ∨ (∃ x, i = .storeRegs x) ∨ (∃ x, i = .loadRegs x)) →
      (∀ b e, check b = some e → (e = .memoryBounds ∧ memSize ≤ b) ∨ (e = .protectedWrite ∧ b < fontSize)) →
      done.mode = s.mode → checked i s check a n done = .next t →
      (∃ e d, Raises i s e d ∧ t = s.raise i e d) ∨ t.mode = s.mode := by
    intro check a n done hi hc hd h
    rcases checked_cases i s check a n done with ⟨-, e⟩ | ⟨e, bad, hf, he⟩
    · rw [e] at h
      simp only [Host.Outcome.next.injEq] at h
      exact .inr (h ▸ hd)
    · rw [he] at h
      simp only [Host.Outcome.next.injEq] at h
      obtain ⟨k, -, -, hb, -⟩ := firstFailure_eq_some hf
      exact .inl ⟨e, some bad, .inr (.inr (.inl ⟨hi, bad, rfl, hc _ _ hb⟩)), h.symm⟩
  have keep : ∀ {u : State}, Host.Outcome.next (φ := Fault) (ρ := Refusal) u = .next t → u.mode = s.mode →
      t.mode = s.mode := fun {u} h e => by
    simp only [Host.Outcome.next.injEq] at h
    exact h ▸ e
  cases i with
  | ret =>
    simp only [exec, execRet] at h
    split at h
    · simp only [Host.Outcome.next.injEq] at h
      exact .inl ⟨_, _, .inl ⟨rfl, rfl, rfl⟩, h.symm⟩
    · exact .inr (.inr (keep h rfl))
  | call nnn =>
    simp only [exec, execCall] at h
    split at h
    · simp only [Host.Outcome.next.injEq] at h
      exact .inl ⟨_, _, .inr (.inl ⟨nnn, rfl, rfl, rfl⟩), h.symm⟩
    · exact .inr (.inr (keep h rfl))
  | skp x => exact (keyCase x true (.inl rfl) h).imp id .inr
  | sknp x => exact (keyCase x false (.inr rfl) h).imp id .inr
  | ldVxK x =>
    simp only [exec, execLdVxK, Host.Outcome.next.injEq] at h
    exact .inr (.inl ⟨x, rfl, h.symm⟩)
  | drw x y n => exact (checkedCase _ _ _ _ (.inl ⟨x, y, n, rfl⟩) (fun _ _ h => .inl (checkRead_some h)) (by rfl) h).imp id .inr
  | ldB x =>
    exact (checkedCase _ _ _ _ (.inr (.inl ⟨x, rfl⟩)) (fun _ _ h => checkWrite_some h) (by simp) h).imp id .inr
  | storeRegs x =>
    exact (checkedCase _ _ _ _ (.inr (.inr (.inl ⟨x, rfl⟩))) (fun _ _ h => checkWrite_some h) (by simp) h).imp id .inr
  | loadRegs x =>
    exact (checkedCase _ _ _ _ (.inr (.inr (.inr ⟨x, rfl⟩))) (fun _ _ h => .inl (checkRead_some h)) (by rfl) h).imp id .inr
  | seImm x nn => exact .inr (.inr (keep h (mode_skipIf _ _)))
  | sneImm x nn => exact .inr (.inr (keep h (mode_skipIf _ _)))
  | seReg x y => exact .inr (.inr (keep h (mode_skipIf _ _)))
  | sneReg x y => exact .inr (.inr (keep h (mode_skipIf _ _)))
  | sub x y => exact .inr (.inr (keep h (by rw [flagThenResult_eq])))
  | subn x y => exact .inr (.inr (keep h (by rw [flagThenResult_eq])))
  | shr x y => exact .inr (.inr (keep h (by rw [flagThenResult_eq])))
  | shl x y => exact .inr (.inr (keep h (by rw [flagThenResult_eq])))
  | addI x => exact .inr (.inr (keep h (by split <;> rfl)))
  | cls => exact .inr (.inr (keep h rfl))
  | jp nnn => exact .inr (.inr (keep h rfl))
  | ldImm x nn => exact .inr (.inr (keep h rfl))
  | addImm x nn => exact .inr (.inr (keep h rfl))
  | ldReg x y => exact .inr (.inr (keep h rfl))
  | orReg x y => exact .inr (.inr (keep h rfl))
  | andReg x y => exact .inr (.inr (keep h rfl))
  | xorReg x y => exact .inr (.inr (keep h rfl))
  | addReg x y => exact .inr (.inr (keep h rfl))
  | ldI nnn => exact .inr (.inr (keep h rfl))
  | jpV0 nnn => exact .inr (.inr (keep h rfl))
  | rnd x nn => exact .inr (.inr (keep h rfl))
  | ldVxDt x => exact .inr (.inr (keep h rfl))
  | ldDtVx x => exact .inr (.inr (keep h rfl))
  | ldStVx x => exact .inr (.inr (keep h rfl))
  | ldF x => exact .inr (.inr (keep h rfl))

end Sys2Proof.Machine
end

