-- ==== Sys2Proof/Laws/Ports.lean ====
section
/-! SUPPORT. The host's moves, element by element, and everything one move can do (60_exceptions.md R290). -/

namespace Sys2Proof.Machine

namespace State

variable (s : State)

/-- A timer one tick later (R251). -/
def tickedTimer (b : Byte) : Byte := if b = 0 then 0 else b - 1

theorem toNat_tickedTimer (b : Byte) : (tickedTimer b).toNat = b.toNat - 1 := by
  have := b.isLt
  unfold tickedTimer
  split
  · next h => simp [h]
  · next h =>
    have : b.toNat ≠ 0 := fun e => h (BitVec.eq_of_toNat_eq e)
    rw [BitVec.toNat_sub, show BitVec.toNat (1 : Byte) = 1 from rfl]
    omega

theorem tickedTimer_eq_zero (b : Byte) : tickedTimer b = 0 ↔ b.toNat ≤ 1 := by
  have := toNat_tickedTimer b
  constructor
  · intro h
    rw [h] at this
    simp at this
    omega
  · intro h
    exact BitVec.eq_of_toNat_eq (by simp; omega)

/-- What `setSt` does when a nonzero sound timer ticks. -/
theorem setSt_sub_one {s : State} (h : s.st ≠ 0) : s.setSt (s.st - 1) = { s with
    st := tickedTimer s.st
    events := if s.st.toNat = 1 then s.events ++ [.soundStopped] else s.events } := by
  have t : tickedTimer s.st = s.st - 1 := if_neg h
  have hz : s.st - 1 = 0 ↔ s.st.toNat ≤ 1 := t ▸ tickedTimer_eq_zero s.st
  have e : s.st.toNat ≠ 0 := fun e => h (BitVec.eq_of_toNat_eq e)
  rw [setSt, t]
  congr 1
  by_cases h1 : s.st.toNat = 1
  · rw [if_pos ⟨h, hz.mpr (by omega)⟩, if_pos h1]
  · rw [if_neg (fun c => h1 (by have := hz.mp c.2; omega)), if_neg h1]

/-- Everything a tick does (R251). -/
theorem tickTimers_eq : s.tickTimers = { s with
    dt := tickedTimer s.dt
    st := tickedTimer s.st
    events := if s.st.toNat = 1 then s.events ++ [.soundStopped] else s.events } := by
  have sound : ∀ u : State, (if u.st ≠ 0 then u.setSt (u.st - 1) else u) = { u with
      st := tickedTimer u.st
      events := if u.st.toNat = 1 then u.events ++ [.soundStopped] else u.events } := by
    intro u
    by_cases h : u.st = 0
    · rw [if_neg (by simpa using h)]
      have t : tickedTimer u.st = u.st := by rw [h]; rfl
      have e : u.st.toNat ≠ 1 := by rw [h]; decide
      rw [t, if_neg e]
    · rw [if_pos h, setSt_sub_one h]
  have delay : (if s.dt ≠ 0 then s.setDt (s.dt - 1) else s) = { s with dt := tickedTimer s.dt } := by
    by_cases h : s.dt = 0
    · rw [if_neg (by simpa using h), tickedTimer, if_pos h, ← h]
    · rw [if_pos h, tickedTimer, if_neg h, setDt]
  unfold tickTimers
  rw [delay]
  exact sound _

theorem setKeyDown_of_awaitingKey {x : Reg} (h : s.mode = .awaitingKey x) (k : Key) : s.setKeyDown k =
    { (s.setKey k true).setReg x (BitVec.ofNat 8 k.val) with mode := .running } := by
  simp only [setKeyDown, setKey_mode, h]

theorem setKeyDown_of_not_awaitingKey (h : ∀ x, s.mode ≠ .awaitingKey x) (k : Key) :
    s.setKeyDown k = s.setKey k true := by
  simp only [setKeyDown]
  split
  · next x hx => exact absurd hx (h x)
  · rfl
  · rfl

theorem loadProgram_eq_some {t : State} {bytes : List Byte} (h : s.loadProgram bytes = some t) :
    bytes.length ≤ maxImage ∧ t = s.writeBytes loadBase bytes := by
  simp only [loadProgram, wellFormedImage, Option.ite_none_right_eq_some, decide_eq_true_eq, Option.some.injEq] at h
  exact ⟨h.1, h.2.symm⟩

end State

/-- Everything a move can do to the core. -/
theorem transition_cases {e : Event} {x y : Session} {rsp : Response} (h : transition e x = .next (y, rsp)) :
    (e = .reset ∧ y.core = x.core.hostReset) ∨
    (∃ bytes, e = .loadProgram bytes ∧ x.loadOpen = true ∧
      (y.core = x.core ∨ x.core.loadProgram bytes = some y.core)) ∨
    (e = .step ∧ step x.core = .next y.core) ∨ (e = .tickTimers ∧ y.core = x.core.tickTimers) ∨
    (∃ k, e = .setKeyDown k ∧ y.core = x.core.setKeyDown k) ∨ (∃ k, e = .setKeyUp k ∧ y.core = x.core.setKeyUp k) ∨
    (e = .consumeFrame ∧ y.core = x.core.consumeFrame.2) := by
  cases e with
  | reset =>
    simp only [transition, Host.Outcome.next.injEq, Prod.mk.injEq] at h
    exact .inl ⟨rfl, by rw [← h.1]⟩
  | loadProgram bytes =>
    simp only [transition] at h
    split at h
    · next ho =>
      split at h
      · next s hs =>
        simp only [Host.Outcome.next.injEq, Prod.mk.injEq] at h
        exact .inr (.inl ⟨bytes, rfl, ho, .inr (by rw [← h.1]; exact hs)⟩)
      · simp only [Host.Outcome.next.injEq, Prod.mk.injEq] at h
        exact .inr (.inl ⟨bytes, rfl, ho, .inl (by rw [← h.1])⟩)
    · cases h
  | step =>
    simp only [transition] at h
    split at h
    · next s hs =>
      simp only [Host.Outcome.next.injEq, Prod.mk.injEq] at h
      exact .inr (.inr (.inl ⟨rfl, by rw [← h.1]; exact hs⟩))
    · cases h
    · cases h
  | tickTimers =>
    simp only [transition, Host.Outcome.next.injEq, Prod.mk.injEq] at h
    exact .inr (.inr (.inr (.inl ⟨rfl, by rw [← h.1]⟩)))
  | setKeyDown k =>
    simp only [transition, Host.Outcome.next.injEq, Prod.mk.injEq] at h
    exact .inr (.inr (.inr (.inr (.inl ⟨k, rfl, by rw [← h.1]⟩))))
  | setKeyUp k =>
    simp only [transition, Host.Outcome.next.injEq, Prod.mk.injEq] at h
    exact .inr (.inr (.inr (.inr (.inr (.inl ⟨k, rfl, by rw [← h.1]⟩)))))
  | consumeFrame =>
    simp only [transition, Host.Outcome.next.injEq, Prod.mk.injEq] at h
    exact .inr (.inr (.inr (.inr (.inr (.inr ⟨rfl, by rw [← h.1]⟩)))))

/-- What holds of every move holds of every run (70_reset_and_hazards.md R337). -/
theorem runEvents_induction {P : State → State → Prop} (refl : ∀ s, P s s)
    (trans : ∀ {s t u}, P s t → P t u → P s u)
    (move : ∀ {e x y rsp}, transition e x = .next (y, rsp) → P x.core y.core) {es : List Event} {x y : Session}
    (h : runEvents es x = .next y) : P x.core y.core := by
  induction es generalizing x with
  | nil =>
    simp only [runEvents, Host.Outcome.next.injEq] at h
    exact h ▸ refl _
  | cons e es ih =>
    simp only [runEvents] at h
    split at h
    · next z rsp hz => exact trans (move hz) (ih h)
    · cases h
    · cases h

end Sys2Proof.Machine
end

