-- ==== Sys2Proof/Tests/Slice0.lean ====
section
/-! SUPPORT. Tests on fixed values: their expected results are those of spec/95_test_vectors.md (the vector is named)
or are worked out by hand from the rule named. Below them, a state and operands that meet the hypotheses of each
statement for the provers. -/

/-! Each test is checked before the next one starts, or their threads together run out of memory. -/

set_option Elab.async false

namespace Sys2Proof.Tests

open Sys2Proof Sys2Proof.Machine

/-! ### Helpers -/

/-- The start state of the vectors: reset, default parameters, a stack of eight entries. -/
def start : State := State.resetWith (Params.defaults 0)

/-- The same with ALIAS_ORDER = sequential. -/
def startSeq : State := { start with cfg := { start.cfg with aliasOrder := .sequential } }

/-- The same with FONT_WRITE_POLICY = write and FX1E_SETS_VF = false. -/
def startOther : State := { start with cfg := { start.cfg with fontPolicy := .write, fx1eSetsVF := false } }

/-- The state after an outcome, if there is one. -/
def nextOf (r : Result) : Option State :=
  match r with
  | .next t => some t
  | .fault _ => none
  | .refused _ => none

/-- One step with the word `w` at PC. -/
def after (s : State) (w : Nat) : Option State := nextOf (step (s.withFetchWord 16 w))

/-- What a word at PC leaves in two registers. -/
def regsAfter (s : State) (w : Nat) (a b : Reg) : Option (Byte × Byte) := (after s w).map fun t => (t.reg a, t.reg b)

/-- Where a word at PC leaves PC. -/
def pcAfter (s : State) (w : Nat) : Option Word := (after s w).map State.pc

/-- The error a word at PC ends in, with PC after it. -/
def errorAfter (s : State) (w : Nat) : Option (ErrorRecord × Word) :=
  match after s w with
  | none => none
  | some t =>
    match t.mode with
    | .halted r => some (r, t.pc)
    | .running => none
    | .awaitingKey _ => none

/-- The pixels of a row at some columns. -/
def pixels (s : State) (Y : Fin 32) (columns : List (Fin 64)) : List Bool := columns.map fun X => s.display.pixel X Y

/-! ### WellFormed refuses -/

/-- 30_encoding.md R78, vectors DEC-3 to DEC-10: words of no row. -/
theorem test_wf_refuses_words :
    [0x0000, 0x0123, 0x00E1, 0x5121, 0x9121, 0x8008, 0x800F, 0xE09F, 0xF000, 0xF0FF].any wellFormedWord = false := by
  decide

/-- 70_reset_and_hazards.md R325: one byte more than fits. -/
theorem test_wf_refuses_image : wellFormedImage (List.replicate 3585 0) = false := by decide +kernel

theorem test_wf_accepts_image : wellFormedImage (List.replicate 3584 0) = true := by decide +kernel

/-- 45_keypad.md R233: no such key. -/
theorem test_wf_refuses_key : wellFormedKeyCode 16 = false ∧ wellFormedKeyCode 15 = true := by decide

theorem test_wf_accepts_words : [0x00E0, 0x5120, 0x8FFE, 0xEFA1, 0xF065].all wellFormedWord = true := by decide

/-! ### Decoding: words written out from the rows of 30_encoding.md R76 -/

theorem test_decode_flow :
    decodeWord 0x00E0 = some .cls ∧ decodeWord 0x00EE = some .ret ∧ decodeWord 0x1204 = some (.jp 0x204) ∧
    decodeWord 0x2ABC = some (.call 0xABC) ∧ decodeWord 0xBFFF = some (.jpV0 0xFFF) := by decide

theorem test_decode_skip :
    decodeWord 0x3005 = some (.seImm 0 5) ∧ decodeWord 0x4311 = some (.sneImm 3 0x11) ∧
    decodeWord 0x5120 = some (.seReg 1 2) ∧ decodeWord 0x9AB0 = some (.sneReg 0xA 0xB) := by decide

theorem test_decode_immediate :
    decodeWord 0x6A7B = some (.ldImm 0xA 0x7B) ∧ decodeWord 0x71FF = some (.addImm 1 0xFF) ∧
    decodeWord 0xC30F = some (.rnd 3 0x0F) := by decide

theorem test_decode_alu :
    decodeWord 0x8120 = some (.ldReg 1 2) ∧ decodeWord 0x8121 = some (.orReg 1 2) ∧
    decodeWord 0x8122 = some (.andReg 1 2) ∧ decodeWord 0x8123 = some (.xorReg 1 2) ∧
    decodeWord 0x8F14 = some (.addReg 0xF 1) ∧ decodeWord 0x81F5 = some (.sub 1 0xF) ∧
    decodeWord 0x8126 = some (.shr 1 2) ∧ decodeWord 0x8127 = some (.subn 1 2) ∧
    decodeWord 0x830E = some (.shl 3 0) := by decide

theorem test_decode_index :
    decodeWord 0xA300 = some (.ldI 0x300) ∧ decodeWord 0xD12F = some (.drw 1 2 0xF) ∧
    decodeWord 0xF21E = some (.addI 2) ∧ decodeWord 0xF429 = some (.ldF 4) ∧ decodeWord 0xFA33 = some (.ldB 0xA) ∧
    decodeWord 0xF155 = some (.storeRegs 1) ∧ decodeWord 0xFF65 = some (.loadRegs 0xF) := by decide

theorem test_decode_key_timer :
    decodeWord 0xE59E = some (.skp 5) ∧ decodeWord 0xE1A1 = some (.sknp 1) ∧ decodeWord 0xF107 = some (.ldVxDt 1) ∧
    decodeWord 0xF30A = some (.ldVxK 3) ∧ decodeWord 0xF015 = some (.ldDtVx 0) ∧
    decodeWord 0xF218 = some (.ldStVx 2) := by decide

/-- 20_memory.md R57: the high byte comes first; 30_encoding.md R81: one byte is no instruction. -/
theorem test_decode_bytes :
    decode [0x12, 0x34, 0x56] = .ok (.jp 0x234, [0x56]) ∧ decode [0x51, 0x21] = .error (.unknownOpcode 0x5121) ∧
    decode [0x12] = .error .truncated := by decide

theorem test_decode_table_word :
    decodeTableWord 16 0x00E0 = some .cls ∧ decodeTableWord 16 0x0000 = none ∧
    decodeTableWord 16 0xD125 = some (.drw 1 2 5) := by decide

/-! ### Fetch -/

/-- DEC-2: an odd PC. -/
theorem test_fetch_odd : pcAfter (start.setPc 0x201) 0x1234 = some 0x234 := by decide +kernel

/-- DEC-3: reset memory holds no instruction, which is reported. -/
theorem test_fetch_unknown :
    (nextOf (step start)).map (fun t => (t.pc, t.diag, t.mode)) = some (0x202, [⟨0x200, 0x0000⟩], .running) := by
  decide +kernel

/-- DEC-12, DEC-13: the fetch error at 0xFFF and at 0x1000. -/
theorem test_fetch_error :
    (nextOf (step (start.setPc 0xFFF))).map State.mode = some (.halted ⟨.memoryBounds, 0xFFF, none, some 0x1000⟩) ∧
    (nextOf (step (start.setPc 0x1000))).map State.mode =
      some (.halted ⟨.memoryBounds, 0x1000, none, some 0x1000⟩) := by
  decide +kernel

/-- DEC-11: the last full word. -/
theorem test_fetch_last_word : pcAfter (start.setPc 0xFFE) 0x1200 = some 0x200 := by decide +kernel

/-! ### Display -/

/-- DSP-1, W8. -/
theorem test_cls :
    (after (start.drawn (blankDisplay.setPixel 3 4 true, true)) 0x00E0).map
      (fun t => (pixels t 4 [2, 3, 4], t.dirty, t.reg VF)) = some ([false, false, false], true, 1) := by
  decide +kernel

/-- W5 with the byte 0xFE: the sprite wraps in the row, and bit 7 is leftmost. -/
theorem test_drw_wraps :
    (after (((((start.setReg 0 63).setReg 1 31).setI 0x300).setByte 0x300 0xFE)) 0xD011).map
      (fun t => (pixels t 31 [62, 63, 0, 5, 6], pixels t 0 [63, 0], t.reg VF, t.dirty)) =
      some ([false, true, true, true, false], [false, false], 0, true) := by
  decide +kernel

/-- DSP-7: a collision. -/
theorem test_drw_collides :
    (after ({ (start.setI 0x300).setByte 0x300 0x80 with display := blankDisplay.setPixel 0 0 true }) 0xD001).map
      (fun t => (pixels t 0 [0, 1], t.reg VF)) = some ([false, false], 1) := by
  decide +kernel

/-! ### Flow -/

/-- FLW-1 and FLW-2. -/
theorem test_ret :
    (after { start with pc := 0x212, stack := [0x400, 0x206] } 0x00EE).map (fun t => (t.pc, t.stack)) =
      some (0x206, [0x400]) ∧
    errorAfter start 0x00EE = some (⟨.stackUnderflow, 0x200, some 0x00EE, none⟩, 0x202) := by
  decide +kernel

/-- FLW-3. -/
theorem test_jp : pcAfter (start.setPc 0x20A) 0x1204 = some 0x204 := by decide +kernel

/-- FLW-7 and FLW-6: the eighth entry fits a stack of eight, the ninth does not. -/
theorem test_call :
    (after { start with stack := List.replicate 7 0x300 } 0x2400).map (fun t => (t.pc, t.stack)) =
      some (0x400, List.replicate 7 0x300 ++ [0x202]) ∧
    errorAfter { start with stack := List.replicate 8 0x300 } 0x2400 =
      some (⟨.stackOverflow, 0x200, some 0x2400, none⟩, 0x202) := by
  decide +kernel

/-- FLW-9. -/
theorem test_jpV0 : pcAfter (start.setReg 0 0xFF) 0xBFFF = some 0x10FE := by decide +kernel

/-! ### Skips -/

/-- SKP-1, SKP-2. -/
theorem test_seImm :
    pcAfter ((start.setPc 0x208).setReg 0 5) 0x3005 = some 0x20C ∧
    pcAfter ((start.setPc 0x208).setReg 0 4) 0x3005 = some 0x20A := by decide +kernel

/-- SKP-3, SKP-4. -/
theorem test_sneImm :
    pcAfter ((start.setPc 0x300).setReg 3 0x10) 0x4311 = some 0x304 ∧
    pcAfter ((start.setPc 0x300).setReg 3 0x11) 0x4311 = some 0x302 := by decide +kernel

/-- SKP-5, SKP-6. -/
theorem test_seReg :
    pcAfter ((start.setReg 1 7).setReg 2 7) 0x5120 = some 0x204 ∧
    pcAfter ((start.setReg 1 7).setReg 2 8) 0x5120 = some 0x202 := by decide +kernel

/-- SKP-7, SKP-8. -/
theorem test_sneReg :
    pcAfter ((start.setReg 1 7).setReg 2 8) 0x9120 = some 0x204 ∧
    pcAfter ((start.setReg 1 7).setReg 2 7) 0x9120 = some 0x202 := by decide +kernel

/-! ### Arithmetic and logic -/

/-- ALU-1, ALU-2. -/
theorem test_ldImm : regsAfter start 0x6A7B 0xA VF = some (0x7B, 0) ∧
    regsAfter (start.setReg VF 0x12) 0x6F00 0xF 0 = some (0, 0) := by decide +kernel

/-- ALU-4, ALU-5. -/
theorem test_addImm : regsAfter ((start.setReg 1 2).setReg VF 0x33) 0x71FF 1 VF = some (1, 0x33) ∧
    regsAfter (start.setReg VF 0xFF) 0x7F01 VF 0 = some (0, 0) := by decide +kernel

/-- ALU-6. -/
theorem test_ldReg : regsAfter (start.setReg 2 0x33) 0x8120 1 2 = some (0x33, 0x33) := by decide +kernel

/-- ALU-7. -/
theorem test_orReg :
    regsAfter (((start.setReg 1 0xF0).setReg 2 0x0F).setReg VF 0x77) 0x8121 1 VF = some (0xFF, 0x77) := by
  decide +kernel

/-- ALU-8. -/
theorem test_andReg : regsAfter ((start.setReg 1 0xF0).setReg 2 0x3C) 0x8122 1 2 = some (0x30, 0x3C) := by
  decide +kernel

/-- ALU-9. -/
theorem test_xorReg : regsAfter ((start.setReg 1 0xF0).setReg 2 0x3C) 0x8123 1 2 = some (0xCC, 0x3C) := by
  decide +kernel

/-- W2, ALU-12 (both orders). -/
theorem test_addReg :
    regsAfter ((start.setReg 1 0xFF).setReg 2 0x01) 0x8124 1 VF = some (0x00, 1) ∧
    regsAfter ((start.setReg VF 0xFF).setReg 1 0x01) 0x8F14 VF 1 = some (0, 1) ∧
    regsAfter ((startSeq.setReg VF 0xFF).setReg 1 0x01) 0x8F14 VF 1 = some (0, 1) := by decide +kernel

/-- ALU-15. -/
theorem test_sub : regsAfter ((start.setReg 1 5).setReg 2 7) 0x8125 1 VF = some (0xFE, 0) := by decide +kernel

/-- ALU-17, ALU-18, under either order. -/
theorem test_sub_alias :
    regsAfter ((start.setReg VF 5).setReg 1 3) 0x8F15 VF 1 = some (0x02, 3) ∧
    regsAfter ((startSeq.setReg VF 5).setReg 1 3) 0x8F15 VF 1 = some (0xFE, 3) ∧
    regsAfter ((start.setReg 1 5).setReg VF 3) 0x81F5 1 VF = some (2, 1) ∧
    regsAfter ((startSeq.setReg 1 5).setReg VF 3) 0x81F5 1 VF = some (4, 1) := by decide +kernel

/-- ALU-21: `y` is ignored. -/
theorem test_shr :
    regsAfter ((start.setReg 1 5).setReg 2 0xFF) 0x8126 1 VF = some (2, 1) ∧
    regsAfter (start.setReg 1 0x80) 0x8106 1 VF = some (0x40, 0) := by decide +kernel

/-- ALU-23, under either order. -/
theorem test_shr_alias :
    regsAfter (start.setReg VF 5) 0x8F06 VF 0 = some (2, 0) ∧
    regsAfter (startSeq.setReg VF 5) 0x8F06 VF 0 = some (0, 0) := by decide +kernel

/-- ALU-25. -/
theorem test_subn : regsAfter ((start.setReg 1 5).setReg 2 3) 0x8127 1 VF = some (0xFE, 0) := by decide +kernel

/-- ALU-26, ALU-27, under either order. -/
theorem test_subn_alias :
    regsAfter ((start.setReg VF 3).setReg 1 5) 0x8F17 VF 1 = some (2, 5) ∧
    regsAfter ((startSeq.setReg VF 3).setReg 1 5) 0x8F17 VF 1 = some (4, 5) ∧
    regsAfter ((start.setReg 1 3).setReg VF 5) 0x81F7 1 VF = some (2, 1) ∧
    regsAfter ((startSeq.setReg 1 3).setReg VF 5) 0x81F7 1 VF = some (0xFE, 1) := by decide +kernel

/-- ALU-28, ALU-29. -/
theorem test_shl :
    regsAfter (start.setReg 3 0x81) 0x830E 3 VF = some (2, 1) ∧
    regsAfter (start.setReg 1 0x7F) 0x810E 1 VF = some (0xFE, 0) := by decide +kernel

/-- ALU-30, under either order. -/
theorem test_shl_alias :
    regsAfter (start.setReg VF 0xC0) 0x8F0E VF 0 = some (0x80, 0) ∧
    regsAfter (startSeq.setReg VF 0xC0) 0x8F0E VF 0 = some (2, 0) := by decide +kernel

/-- ALU-32: a zero mask gives 0 whatever the draw is. -/
theorem test_rnd : (nextOf (exec (.rnd 1 0) start)).map (fun t => t.reg 1) = some 0 := by
  show some ((0 : Byte) &&& Config.rand8 0) = some 0
  simp

/-- 43_alu.md R173: one draw each. -/
theorem test_rnd_draws : (after start 0xC100).map State.draws = some 1 := by decide +kernel

/-! ### Index and memory -/

/-- IDX-1. -/
theorem test_ldI : (after start 0xA300).map State.i = some 0x300 := by decide +kernel

/-- IDX-4, IDX-7: the flag and the wrap of I. -/
theorem test_addI :
    (after ((start.setI 0xFFF).setReg 1 1) 0xF11E).map (fun t => (t.i, t.reg VF)) = some (0x1000, 1) ∧
    (after ((start.setI 0xFFFF).setReg 1 2) 0xF11E).map (fun t => (t.i, t.reg VF)) = some (0x0001, 1) := by
  decide +kernel

/-- IDX-5, IDX-3. -/
theorem test_addI_flag :
    (after (((startOther.setI 0xFFF).setReg 1 1).setReg VF 0x42) 0xF11E).map (fun t => (t.i, t.reg VF)) =
      some (0x1000, 0x42) ∧
    (after (((start.setI 0xFFE).setReg 1 1).setReg VF 0x42) 0xF11E).map (fun t => (t.i, t.reg VF)) =
      some (0xFFF, 0) := by decide +kernel

/-- IDX-8, IDX-10. -/
theorem test_ldF : (after (start.setReg 4 0xA) 0xF429).map State.i = some 0x032 ∧
    (after (start.setReg 1 0xFF) 0xF129).map State.i = some 0x4FB := by decide +kernel

/-- IDX-13. -/
theorem test_ldB :
    (after ((start.setReg 1 0xFF).setI 0x300) 0xF133).map (fun t => (t.readBytes 0x300 3, t.i)) =
      some ([2, 5, 5], 0x300) := by decide +kernel

/-- IDX-14, IDX-15, IDX-16: out of the memory, into the font, and into the font where that is allowed. -/
theorem test_ldB_errors :
    errorAfter ((start.setReg 1 0xC8).setI 0xFFE) 0xF133 =
      some (⟨.memoryBounds, 0x200, some 0xF133, some 0x1000⟩, 0x202) ∧
    errorAfter ((start.setReg 1 0xC8).setI 0x04E) 0xF133 =
      some (⟨.protectedWrite, 0x200, some 0xF133, some 0x04E⟩, 0x202) ∧
    (after ((startOther.setReg 1 0xC8).setI 0x04E) 0xF133).map (·.readBytes 0x04E 3) = some [2, 0, 0] := by
  decide +kernel

/-- IDX-17: two registers, I unchanged. -/
theorem test_storeRegs :
    (after (((start.setReg 0 0x62).setReg 1 0x55).setI 0x20A) 0xF155).map (fun t => (t.readBytes 0x20A 3, t.i)) =
      some ([0x62, 0x55, 0], 0x20A) := by decide +kernel

/-- IDX-19, IDX-20. -/
theorem test_storeRegs_errors :
    errorAfter (start.setI 0x04F) 0xF055 = some (⟨.protectedWrite, 0x200, some 0xF055, some 0x04F⟩, 0x202) ∧
    errorAfter (start.setI 0xFF1) 0xFF55 = some (⟨.memoryBounds, 0x200, some 0xFF55, some 0x1000⟩, 0x202) := by
  decide +kernel

/-- IDX-22: three registers, the fourth keeps its value. -/
theorem test_loadRegs :
    (after (((start.writeBytes 0x300 [1, 2, 3, 4]).setI 0x300).setReg 3 9) 0xF265).map
      (fun t => (t.v.toList.take 4, t.i)) = some ([1, 2, 3, 9], 0x300) := by decide +kernel

/-- IDX-23, IDX-24: no partial load, and the font can be read. -/
theorem test_loadRegs_error :
    (after ((start.setI 0xFFF).setReg 1 9) 0xF165).map (fun t => (t.mode, t.reg 1)) =
      some (.halted ⟨.memoryBounds, 0x200, some 0xF165, some 0x1000⟩, 9) ∧
    (after start 0xF065).map (·.reg 0) = some 0xF0 := by decide +kernel

/-! ### Keys -/

/-- KEY-1, KEY-2. -/
theorem test_skp :
    pcAfter (((start.setPc 0x220).setReg 5 0xC).setKey 0xC true) 0xE59E = some 0x224 ∧
    pcAfter ((start.setPc 0x220).setReg 5 0xC) 0xE59E = some 0x222 := by decide +kernel

/-- KEY-3, KEY-4. -/
theorem test_sknp :
    pcAfter ((start.setPc 0x220).setReg 5 0xC) 0xE5A1 = some 0x224 ∧
    pcAfter (((start.setPc 0x220).setReg 5 0xC).setKey 0xC true) 0xE5A1 = some 0x222 := by decide +kernel

/-- KEY-5, KEY-6. -/
theorem test_key_errors :
    errorAfter (start.setReg 1 0x10) 0xE19E = some (⟨.keyIndexRange, 0x200, some 0xE19E, some 0x10⟩, 0x202) ∧
    errorAfter (start.setReg 1 0xFF) 0xE1A1 = some (⟨.keyIndexRange, 0x200, some 0xE1A1, some 0xFF⟩, 0x202) := by
  decide +kernel

/-- KEY-14: a key already held does not end the wait. -/
theorem test_ldVxK :
    (after (start.setKey 9 true) 0xF20A).map (fun t => (t.mode, t.pc)) = some (.awaitingKey 2, 0x202) := by
  decide +kernel

/-- W7, KEY-12, KEY-13. -/
theorem test_setKeyDown :
    ({ start with mode := .awaitingKey 3 }.setKeyDown 0xB).reg 3 = 0x0B ∧
    ({ start with mode := .awaitingKey 3 }.setKeyDown 0xB).mode = .running ∧
    ({ start with mode := .awaitingKey 0xF }.setKeyDown 0xA).reg VF = 0x0A ∧
    (start.halt ⟨.stackUnderflow, 0x200, some 0x00EE, none⟩ |>.setKeyDown 1).keys[1] = true ∧
    (start.halt ⟨.stackUnderflow, 0x200, some 0x00EE, none⟩ |>.setKeyDown 1).isHalted = true := by decide +kernel

/-- KEY-10. -/
theorem test_setKeyUp :
    ({ start with mode := .awaitingKey 4 }.setKey 3 true).setKeyUp 3 = { start with mode := .awaitingKey 4 } := by
  decide +kernel

/-! ### Timers -/

/-- TMR-5, TMR-6. -/
theorem test_ldVxDt_ldDtVx : (after (start.setDt 5) 0xF107).map (·.reg 1) = some 5 ∧
    (after (start.setReg 0 7) 0xF015).map State.dt = some 7 := by decide +kernel

/-- TMR-7, TMR-8, TMR-9. -/
theorem test_ldStVx :
    (after (start.setReg 2 0x10) 0xF218).map (fun t => (t.st, t.soundActive, t.events)) = some (0x10, true, []) ∧
    (after { start with st := 3 } 0xF218).map (fun t => (t.st, t.events)) = some (0, [.soundStopped]) ∧
    (after start 0xF218).map (fun t => (t.st, t.events)) = some (0, []) := by decide +kernel

/-- TMR-1, TMR-3, TMR-4. -/
theorem test_tickTimers :
    start.tickTimers = start ∧
    ({ start with dt := 1, st := 1 }.tickTimers) = { start with events := [.soundStopped] } ∧
    ({ start with dt := 3, st := 2 }.tickTimers) = { start with dt := 2, st := 1 } := by decide +kernel

/-! ### Host -/

/-- DSP-10: the second call finds the flag cleared. -/
theorem test_consumeFrame :
    let s := { start with dirty := true }
    s.consumeFrame.1.2 = true ∧ s.consumeFrame.2 = start ∧ s.consumeFrame.2.consumeFrame.1.2 = false :=
  ⟨rfl, rfl, rfl⟩

/-- DSP-11: element 64·2 + 5. -/
theorem test_consumeFrame_grid :
    let s := { start with display := blankDisplay.setPixel 5 2 true }
    s.consumeFrame.1.1[133] = true ∧ s.consumeFrame.1.1[134] = false := by
  constructor <;> simp [State.consumeFrame, State.pixelGrid, Display.pixel, Display.setPixel, blankDisplay]

/-- RST-1, TMR-12: reset erases the program, and emits nothing. -/
theorem test_hostReset :
    ({ start.writeBytes 0x200 [0x60, 0x05] with st := 5, mode := .awaitingKey 1 }.hostReset) = start := by
  decide +kernel

/-- RST-4 and R325: the bytes stand from 0x200 up, and no byte is allowed. -/
theorem test_loadProgram :
    (start.loadProgram [0xAB, 0xCD]).map (·.readBytes 0x1FF 4) = some [0, 0xAB, 0xCD, 0] ∧
    start.loadProgram [] = some start := by decide +kernel

/-- RST-3. -/
theorem test_loadProgram_size : start.loadProgram (List.replicate 3585 0) = none := by
  rw [State.loadProgram, test_wf_refuses_image]
  rfl

/-- 70_reset_and_hazards.md R326: the second load of a session is no move. -/
theorem test_load_once :
    (match runEvents [.loadProgram [0x60, 0x05], .loadProgram []] (Session.create (Params.defaults 0)) with
      | .refused r => some r
      | .next _ => none
      | .fault _ => none) = some .loadProgramClosed := by decide +kernel

/-- P4, first four rows: the key wait through the host's moves. -/
theorem test_session :
    (match runEvents [.loadProgram [0xF0, 0x0A, 0xF0, 0x15], .step, .step, .setKeyDown 7, .step, .tickTimers]
        (Session.create (Params.defaults 0)) with
      | .next x => some (x.core.dt, x.core.pc, x.core.reg 0)
      | .fault _ => none
      | .refused _ => none) = some (6, 0x204, 7) := by decide +kernel

/-- 60_exceptions.md R271. -/
theorem test_error_codes :
    [ErrorKind.unknownOpcode, .fatal .stackOverflow, .fatal .stackUnderflow, .invalidProgramSize, .fatal .memoryBounds,
      .fatal .protectedWrite, .fatal .keyIndexRange].map ErrorKind.code = [1, 2, 3, 4, 5, 6, 7] := by decide

/-- 20_memory.md R53, first and last byte of the default font; 10_state.md R40 above it. -/
theorem test_font : start.byte 0 = 0xF0 ∧ start.byte 0x4F = 0x80 ∧ start.byte 0x50 = 0 := by decide

/-- The memory after reset is in its canonical form. -/
theorem test_reset_memory_wf : Memory.wf State.reset.cfg.font State.reset.mem := Memory.wf_nil _

/-- Writing the reset value removes the entry. -/
theorem test_memory_canonical :
    ((start.setByte 0x300 7).setByte 0x300 0) = start ∧ (start.setByte 0 0xF0) = start := by decide +kernel

/-! ### Witnesses: states and operands that meet the hypotheses of a statement, at the ends of their ranges -/

/-- A halted state. -/
def stopped : State := start.halt ⟨.stackUnderflow, 0x200, some 0x00EE, none⟩

/-- A state in the key wait. -/
def waiting : State := { start with mode := .awaitingKey 3 }

/-- The word `w` at PC, and a step ready to run it. -/
def primed (s : State) (w : Nat) : State := s.withFetchWord 16 w

theorem witness_EncodeOfDecodedWordIsTheWord : decodeWord 0x8126 = some (.shr 1 2) := by decide

theorem witness_DecodeAgreesWithTheOpcodeTable : decodeWord 0xFF65 = some (.loadRegs 0xF) ∧ decodeWord 0xFFFF = none := by
  decide

/-- At the reset vector and at the last word of the memory. -/
theorem witness_StepRunsTheDecodedInstruction :
    ((primed start 0x6A7B).mode = .running ∧ (primed start 0x6A7B).pc.toNat + 1 < 4096 ∧
      decodeWord ((primed start 0x6A7B).wordAt 0x200) = some (.ldImm 0xA 0x7B)) ∧
    ((primed (start.setPc 0xFFE) 0x1200).pc.toNat = 0xFFE ∧
      decodeWord ((primed (start.setPc 0xFFE) 0x1200).wordAt 0xFFE) = some (.jp 0x200)) := by decide +kernel

theorem witness_UnknownWordIsReportedAndSkipped :
    start.mode = .running ∧ start.pc.toNat + 1 < 4096 ∧ decodeWord (start.wordAt 0x200) = none ∧
    decodeWord ((start.setPc 0xFFE).wordAt 0xFFE) = none := by decide +kernel

theorem witness_FetchOutsideMemoryHalts :
    (start.setPc 0xFFF).mode = .running ∧ 4096 ≤ (start.setPc 0xFFF).pc.toNat + 1 ∧
    4096 ≤ (start.setPc 0x10FE).pc.toNat + 1 := by decide

theorem witness_KeyWaitHoldsUntilKeyDown : waiting.mode = .awaitingKey 3 := rfl

theorem witness_HaltedUntilReset :
    stopped.mode = .halted ⟨.stackUnderflow, 0x200, some 0x00EE, none⟩ ∧
    (∀ e ∈ [Event.step, .setKeyDown 0xF, .tickTimers], e ≠ .reset ∧ ∀ bytes, e ≠ .loadProgram bytes) ∧
    ∃ y, runEvents [.step, .setKeyDown 0xF, .tickTimers] ⟨stopped, false⟩ = .next y :=
  ⟨rfl, by simp, _, rfl⟩

/-- One move for each line of the statement. -/
theorem witness_ModeChangesOnlyAsListed :
    (∃ y rsp, transition .reset ⟨stopped, false⟩ = .next (y, rsp) ∧ y.core.mode ≠ stopped.mode) ∧
    (∃ y rsp, transition (.setKeyDown 7) ⟨waiting, false⟩ = .next (y, rsp) ∧ y.core.mode ≠ waiting.mode) ∧
    (∃ y rsp, transition .step ⟨primed start 0xF30A, false⟩ = .next (y, rsp) ∧
      y.core.mode ≠ (primed start 0xF30A).mode) ∧
    (∃ y rsp, transition .step ⟨start.setPc 0xFFF, false⟩ = .next (y, rsp) ∧ y.core.mode ≠ start.mode) :=
  ⟨⟨_, _, rfl, by decide⟩, ⟨_, _, rfl, by decide⟩, ⟨_, _, rfl, by decide +kernel⟩, ⟨_, _, rfl, by decide +kernel⟩⟩

/-- The window closed, the window open, and a move that needs none. -/
theorem witness_EveryMoveHasANextState :
    (⟨start, false⟩ : Session).loadOpen = false ∧ (Session.create (Params.defaults 0)).loadOpen = true ∧
    ∀ bytes, Event.step ≠ .loadProgram bytes := ⟨rfl, rfl, fun _ h => by cases h⟩

/-- The last byte of the font. -/
theorem witness_ResetState : 15 < 16 ∧ 4 < 5 ∧ 0x050 ≤ 0xFFF := by decide

/-- The last row of the last digit. -/
theorem witness_LdFPointsAtTheGlyph :
    (start.setReg 4 0xF).FontIntact ∧ ((start.setReg 4 0xF).reg 4).toNat < 16 ∧ 4 < 5 :=
  ⟨fun _ _ => rfl, by decide, by decide⟩

theorem witness_FirstStepRunsTheWordAt0x200 :
    (∃ s, start.loadProgram [0x60, 0x05] = some s) ∧ decodeWord (wordOfBytes 0x60 0x05) = some (.ldImm 0 5) :=
  ⟨⟨_, rfl⟩, by decide⟩

/-- The largest image, the smallest one too large, and none. -/
theorem witness_LoadProgramCopiesTheImage :
    Memory.wf start.cfg.font start.mem ∧ (List.replicate 3584 (0 : Byte)).length ≤ 3584 ∧
    3584 < (List.replicate 3585 (0 : Byte)).length ∧ ([] : List Byte).length ≤ 3584 :=
  ⟨Memory.wf_nil _, by rw [List.length_replicate], by rw [List.length_replicate]; decide, Nat.zero_le _⟩

theorem witness_PlacedWordIsRunNext :
    Memory.wf start.cfg.font start.mem ∧ decodeTableWord 16 0x00E0 = some .cls := ⟨Memory.wf_nil _, by decide⟩

/-- Rows up to the last byte of the memory, and no row with I outside it. -/
theorem witness_DrwXorsTheSprite :
    Readable (start.setI 0xFFD).i.toNat (3 : Fin 16).val ∧ Readable (start.setI 0xFFFF).i.toNat (0 : Fin 16).val := by
  decide

theorem witness_DrawingTwiceRestoresTheDisplay :
    ∃ t u, Readable start.i.toNat (5 : Fin 16).val ∧ exec (.drw 0 1 5) start = .next t ∧ t.reg 0 = start.reg 0 ∧
      t.reg 1 = start.reg 1 ∧ exec (.drw 0 1 5) t = .next u :=
  ⟨_, _, by decide, rfl, by decide, by decide, rfl⟩

theorem witness_ConsumeFrameReturnsTheGrid : 63 < 64 ∧ 31 < 32 ∧ 2047 < 32 * 64 ∧ 2047 = 64 * 31 + 63 := by decide

theorem witness_RetPopsTheReturnAddress :
    { start with stack := [0x206] }.stack = [] ++ [0x206] ∧ start.stack = [] := by decide

/-- Seven of eight entries, and eight. -/
theorem witness_CallPushesTheReturnAddress :
    { start with stack := List.replicate 7 0x300 }.stack.length ≠ start.cfg.stackDepth ∧
    { start with stack := List.replicate 8 0x300 }.stack.length = start.cfg.stackDepth := by decide

theorem witness_ReturnUndoesCall : start.stack.length ≠ start.cfg.stackDepth := by decide

theorem witness_IdleLoopChangesNothing :
    (primed (start.setPc 0xFFE) 0x1FFE).mode = .running ∧ (primed (start.setPc 0xFFE) 0x1FFE).pc.toNat + 1 < 4096 ∧
    (primed (start.setPc 0xFFE) 0x1FFE).pc.toNat = (0xFFE : Addr12).toNat ∧
    decodeWord ((primed (start.setPc 0xFFE) 0x1FFE).wordAt 0xFFE) = some (.jp 0xFFE) := by decide +kernel

/-- The flag clauses of 8xy4 to 8xyE. -/
theorem witness_flag_clauses : (0 : Reg) ≠ VF ∧ (14 : Reg) ≠ VF := by decide

/-- The lowest and the highest place, and the font where it may be written. -/
theorem witness_BcdStoresThreeDigits :
    Memory.wf start.cfg.font start.mem ∧ Writable start.cfg ((start.setI 0x050).indexed 0) 3 ∧
    Writable start.cfg ((start.setI 0xFFD).indexed 0) 3 ∧ Writable startOther.cfg (startOther.indexed 0) 3 :=
  ⟨Memory.wf_nil _, by decide, by decide, by decide⟩

theorem witness_StoreRegsStoresV0ToVx :
    Memory.wf start.cfg.font start.mem ∧ Writable start.cfg ((start.setI 0xFF0).indexed 0) ((15 : Reg).val + 1) ∧
    Writable start.cfg ((start.setI 0xFFF).indexed 0) ((0 : Reg).val + 1) ∧
    Writable startOther.cfg (startOther.indexed 0) ((15 : Reg).val + 1) :=
  ⟨Memory.wf_nil _, by decide, by decide, by decide⟩

theorem witness_LoadRegsLoadsV0ToVx :
    Readable (start.indexed 0) ((15 : Reg).val + 1) ∧ Readable ((start.setI 0xFFF).indexed 0) ((0 : Reg).val + 1) := by
  decide

/-- Each clause at the address next to the allowed ones. -/
theorem witness_BadAddressesHaltWithNothingWritten :
    ¬ Readable ((start.setI 0xFFE).indexed 0) (3 : Fin 16).val ∧
    ¬ Readable ((start.setI 0xFFF).indexed 0) ((1 : Reg).val + 1) ∧
    (start.cfg.fontPolicy = .fault ∧ (start.setI 0x04F).indexed 0 < 80) ∧
    (80 ≤ (start.setI 0xFFE).indexed 0 ∧ 4096 < (start.setI 0xFFE).indexed 0 + 3) ∧
    (startOther.cfg.fontPolicy = .write ∧ 4096 < (startOther.setI 0xFF1).indexed 0 + ((15 : Reg).val + 1)) := by
  decide

/-- Program P5: V0 and V1 hold the word `6255`, which Fx55 stores at the next address. -/
def patching : State := primed (((start.setReg 0 0x62).setReg 1 0x55).setI 0x202) 0xF155

theorem witness_StoredWordIsFetchedNext :
    Memory.wf patching.cfg.font patching.mem ∧ patching.mode = .running ∧ patching.pc.toNat + 3 < 4096 ∧
    decodeWord (patching.wordAt 0x200) = some (.storeRegs 1) ∧ 1 ≤ (1 : Reg).val ∧ patching.i = patching.pc + 2 ∧
    Writable patching.cfg patching.i.toNat ((1 : Reg).val + 1) ∧
    decodeWord (wordOfBytes (patching.reg 0) (patching.reg 1)) = some (.ldImm 2 0x55) := by decide +kernel

/-- The largest key code and the smallest value that is none. -/
theorem witness_KeySkips :
    ((start.setReg 1 0xF).reg 1).toNat < 16 ∧ 16 ≤ ((start.setReg 1 0x10).reg 1).toNat := by decide

theorem witness_SetKeyDownResolvesTheWait :
    waiting.mode = .awaitingKey 3 ∧ (∀ x, start.mode ≠ .awaitingKey x) ∧ (∀ x, stopped.mode ≠ .awaitingKey x) ∧
    (0 : Key) ≠ 15 := by
  refine ⟨rfl, ?_, ?_, by decide⟩ <;> intro x h <;> cases h

/-- A tick that ends the sound, and a reset that does. -/
theorem witness_SoundStoppedExactlyWhenSoundEnds :
    (∃ y rsp, transition .tickTimers ⟨{ start with st := 1 }, false⟩ = .next (y, rsp) ∧ y.core.soundActive = false) ∧
    (∃ y rsp, transition .reset ⟨{ start with st := 1 }, false⟩ = .next (y, rsp) ∧ y.core.soundActive = false) :=
  ⟨⟨_, _, rfl, by decide⟩, ⟨_, _, rfl, by decide⟩⟩

/-- An instruction that loads, and the two that store, each with a store done. -/
theorem witness_InstructionsWriteOnlyWhatTheMatrixLists :
    (∃ t, exec (.loadRegs 15) start = .next t) ∧
    (∃ t, exec (.ldB 1) ((start.setReg 1 0xFF).setI 0xFFD) = .next t ∧ t.byte 0xFFF = 5) ∧
    (∃ t, exec (.storeRegs 1) ((start.setReg 1 7).setI 0x050) = .next t ∧ t.byte 0x051 = 7) :=
  ⟨⟨_, rfl⟩, ⟨_, rfl, by decide +kernel⟩, ⟨_, rfl, by decide +kernel⟩⟩

/-- An error of the fetch and an error of an instruction. -/
theorem witness_FatalErrorsArePrecise :
    (∃ t r, (start.setPc 0xFFF).mode = .running ∧ step (start.setPc 0xFFF) = .next t ∧ t.mode = .halted r) ∧
    (∃ t r, (primed start 0x00EE).mode = .running ∧ step (primed start 0x00EE) = .next t ∧ t.mode = .halted r) :=
  ⟨⟨_, _, rfl, rfl, rfl⟩, ⟨_, _, rfl, rfl, rfl⟩⟩

theorem witness_DiagnosticLogOnlyGrows : ∃ t, step start = .next t ∧ t.diag ≠ start.diag := ⟨_, rfl, by decide +kernel⟩

/-- A state in the middle of a run, which satisfies the invariant; the word at 0x200 is `00EE`. -/
def midRun : State :=
  { start with stack := [0x1000, 0x202], diag := [⟨0x300, 0x0000⟩], mem := [(0x201, 0xEE)], st := 1 }

theorem midRun_inv : midRun.Inv where
  mem := by decide
  depth := by decide
  returns := by simp [midRun]
  pc := by decide
  diag := by decide
  record := by
    intro r h
    cases h

theorem witness_StepKeepsTheInvariant : ∃ t, midRun.Inv ∧ step midRun = .next t := ⟨_, midRun_inv, rfl⟩

theorem witness_EveryRunKeepsTheInvariant :
    ∃ y, midRun.Inv ∧ runEvents [.step, .tickTimers, .setKeyUp 2, .reset, .loadProgram [0x12, 0x00]] ⟨midRun, false⟩ =
      .next y := ⟨_, midRun_inv, rfl⟩

theorem witness_FontIsNeverOverwritten :
    ∃ y, start.cfg.fontPolicy = .fault ∧ start.FontIntact ∧
      runEvents [.step, .setKeyDown 2, .consumeFrame] ⟨primed start 0xF055, false⟩ = .next y :=
  ⟨_, rfl, fun _ _ => rfl, rfl⟩

theorem witness_ParametersNeverChange : ∃ y, runEvents [.reset, .step] ⟨stopped, false⟩ = .next y := ⟨_, rfl⟩

end Sys2Proof.Tests
end

section
/-! PROOF. Which moves change the mode (10_state.md R31): said once for a step, for `setKeyDown` and for any move, as
"the mode is kept, or one of the listed transitions was taken". -/

namespace Sys2Proof.Machine

namespace State

variable (s : State)

@[simp] theorem tickTimers_mode : s.tickTimers.mode = s.mode := by rw [tickTimers_eq]
@[simp] theorem setKeyUp_mode (k : Key) : (s.setKeyUp k).mode = s.mode := rfl
@[simp] theorem consumeFrame_mode : s.consumeFrame.2.mode = s.mode := rfl
@[simp] theorem hostReset_mode : s.hostReset.mode = .running := rfl

theorem loadProgram_mode {t : State} {bytes : List Byte} (h : s.loadProgram bytes = some t) : t.mode = s.mode := by
  obtain ⟨-, rfl⟩ := loadProgram_eq_some s h
  exact writeBytes_mode s loadBase bytes

/-- `setKeyDown` keeps the mode, or ends a key wait (R231). -/
theorem setKeyDown_mode_cases (k : Key) :
    (s.setKeyDown k).mode = s.mode ∨ ∃ q, s.mode = .awaitingKey q ∧ (s.setKeyDown k).mode = .running := by
  by_cases hw : ∃ q, s.mode = .awaitingKey q
  · obtain ⟨q, hq⟩ := hw
    exact .inr ⟨q, hq, by rw [setKeyDown_of_awaitingKey s hq]⟩
  · rw [setKeyDown_of_not_awaitingKey s (fun q hq => hw ⟨q, hq⟩)]
    exact .inl (setKey_mode s k true)

end State

/-- A step keeps the mode, or it is a step of a running core that begins a key wait at Fx0A or halts. -/
theorem step_mode_cases {s t : State} (h : step s = .next t) :
    t.mode = s.mode ∨
    (s.mode = .running ∧
      ((∃ q, decodeWord (s.wordAt s.pc.toNat) = some (.ldVxK q) ∧ t.mode = .awaitingKey q) ∨
        ∃ r, t.mode = .halted r)) := by
  rcases step_cases h with ⟨-, rfl⟩ | ⟨hrun, -, rfl⟩ | ⟨hrun, -, i, hdec, hexec⟩ | ⟨-, -, -, rfl⟩
  · exact .inl rfl
  · exact .inr ⟨hrun, .inr ⟨_, rfl⟩⟩
  · rcases exec_cases hexec with ⟨e, d, -, rfl⟩ | ⟨q, rfl, rfl⟩ | hkeep
    · exact .inr ⟨hrun, .inr ⟨_, rfl⟩⟩
    · exact .inr ⟨hrun, .inl ⟨q, hdec, rfl⟩⟩
    · exact .inl hkeep
  · exact .inl rfl

/-- Any move keeps the mode, or it is one of the transitions of R31. -/
theorem transition_mode_cases {e : Event} {x y : Session} {rsp : Response} (h : transition e x = .next (y, rsp)) :
    y.core.mode = x.core.mode ∨
    (e = .reset ∧ y.core.mode = .running) ∨
    (∃ k q, e = .setKeyDown k ∧ x.core.mode = .awaitingKey q ∧ y.core.mode = .running) ∨
    (e = .step ∧ x.core.mode = .running ∧
      ((∃ q, decodeWord (x.core.wordAt x.core.pc.toNat) = some (.ldVxK q) ∧ y.core.mode = .awaitingKey q) ∨
        ∃ r, y.core.mode = .halted r)) := by
  rcases transition_cases h with ⟨he, hy⟩ | ⟨bytes, -, -, hy | hload⟩ | ⟨he, hstep⟩ | ⟨-, hy⟩ | ⟨k, he, hy⟩ |
    ⟨k, -, hy⟩ | ⟨-, hy⟩
  · exact .inr (.inl ⟨he, by rw [hy, State.hostReset_mode]⟩)
  · exact .inl (by rw [hy])
  · exact .inl (x.core.loadProgram_mode hload)
  · exact (step_mode_cases hstep).imp_right fun hlisted => .inr (.inr ⟨he, hlisted⟩)
  · exact .inl (by rw [hy, State.tickTimers_mode])
  · rw [hy]
    exact (x.core.setKeyDown_mode_cases k).imp_right fun ⟨q, hwait, hrun⟩ => .inr (.inl ⟨k, q, he, hwait, hrun⟩)
  · exact .inl (by rw [hy, State.setKeyUp_mode])
  · exact .inl (by rw [hy, State.consumeFrame_mode])

/-- Settles O10: every move keeps the mode or takes a transition of R31, by cases on the moves. -/
theorem modeChangesOnlyAsListed : Obligations.ModeChangesOnlyAsListed :=
  fun _ _ _ _ hmove hne => (transition_mode_cases hmove).resolve_left hne

end Sys2Proof.Machine
end

section
/-! PROOF. The decoder and the rows of the opcode table (30_encoding.md R75): a row's mask and bits are said as equal
fields; the word of a decoded instruction is in its row, and a word in a row decodes to an instruction of that row.
That at most one row admits a word follows, since `decodeWord` is a function. -/

namespace Sys2Proof

/-! What the mask and the bits of a row say of a word. The bits are those of a word `v` of the row, so one lemma serves
every row of a format. -/

theorem admits_iff_and_eq {m v w : Word} (hv : v &&& m = v) : Row.admits ⟨m, v⟩ w = true ↔ w &&& m = v &&& m := by
  rw [Row.admits, beq_iff_eq, hv]

/-- Class 0x0: the whole word selects. -/
theorem admits_mask_FFFF {v w : Word} : Row.admits ⟨0xFFFF, v⟩ w = true ↔ w = v := by
  rw [Row.admits, beq_iff_eq]
  exact (BitVec.and_allOnes (x := w)).congr_left

/-- Formats ADDR, XNN and XYN: the class selects. -/
theorem admits_mask_F000 {v w : Word} (hv : v &&& 0xF000 = v) :
    Row.admits ⟨0xF000, v⟩ w = true ↔ fieldC w = fieldC v := by
  have hw := w.isLt
  have hv' := v.isLt
  rw [admits_iff_and_eq hv, and_F000, and_F000, ← BitVec.toNat_inj, BitVec.toNat_ofNat, BitVec.toNat_ofNat, fieldC, fieldC]
  omega

/-- Format XYS: the class and the low nibble select. -/
theorem admits_mask_F00F {v w : Word} (hv : v &&& 0xF00F = v) :
    Row.admits ⟨0xF00F, v⟩ w = true ↔ fieldC w = fieldC v ∧ w.toNat % 16 = v.toNat % 16 := by
  have hw := w.isLt
  have hv' := v.isLt
  rw [admits_iff_and_eq hv, and_F00F, and_F00F, ← BitVec.toNat_inj, BitVec.toNat_ofNat, BitVec.toNat_ofNat, fieldC, fieldC]
  omega

/-- Format XS: the class and the low byte select. -/
theorem admits_mask_F0FF {v w : Word} (hv : v &&& 0xF0FF = v) :
    Row.admits ⟨0xF0FF, v⟩ w = true ↔ fieldC w = fieldC v ∧ w.toNat % 256 = v.toNat % 256 := by
  have hw := w.isLt
  have hv' := v.isLt
  rw [admits_iff_and_eq hv, and_F0FF, and_F0FF, ← BitVec.toNat_inj, BitVec.toNat_ofNat, BitVec.toNat_ofNat, fieldC, fieldC]
  omega

/-! The table holds the rows of the instructions and no other. -/

theorem row_mem_opcodeRows (i : Instr) : i.row ∈ opcodeRows := by
  cases i <;> simp [opcodeRows, Instr.row]

theorem exists_row_eq_of_mem_opcodeRows {r : Row} (hr : r ∈ opcodeRows) : ∃ i : Instr, i.row = r := by
  simp only [opcodeRows, List.mem_append, List.mem_map] at hr
  rcases hr with ((⟨i, -, hi⟩ | ⟨i, -, hi⟩) | ⟨i, -, hi⟩) | ⟨i, -, hi⟩ <;> exact ⟨i, hi⟩

/-! A decoded word is in the row of its instruction, class by class. -/

theorem admits_of_decodeFixed {w : Word} {i : Instr} (h : decodeFixed w = some i) : i.row.admits w = true := by
  unfold decodeFixed at h
  split at h
  · cases h
    exact admits_mask_FFFF.mpr ‹_›
  · split at h
    · cases h
      exact admits_mask_FFFF.mpr ‹_›
    · cases h

theorem admits_of_decodeAlu {w : Word} {i : Instr} (hc : fieldC w = 0x8) (h : decodeAlu w = some i) :
    i.row.admits w = true := by
  unfold decodeAlu at h
  split at h <;> cases h <;> exact (admits_mask_F00F (by decide)).mpr ⟨hc, ‹_›⟩

theorem admits_of_decodeKey {w : Word} {i : Instr} (hc : fieldC w = 0xE) (h : decodeKey w = some i) :
    i.row.admits w = true := by
  unfold decodeKey at h
  split at h <;> cases h <;> exact (admits_mask_F0FF (by decide)).mpr ⟨hc, ‹_›⟩

theorem admits_of_decodeMisc {w : Word} {i : Instr} (hc : fieldC w = 0xF) (h : decodeMisc w = some i) :
    i.row.admits w = true := by
  unfold decodeMisc at h
  split at h <;> cases h <;> exact (admits_mask_F0FF (by decide)).mpr ⟨hc, ‹_›⟩

theorem row_admits_of_decodeWord {w : Word} {i : Instr} (h : decodeWord w = some i) : i.row.admits w = true := by
  unfold decodeWord at h
  split at h
  case h_1 => exact admits_of_decodeFixed h
  case h_6 hc | h_10 hc =>
    split at h
    · cases h
      exact (admits_mask_F00F (by decide)).mpr ⟨hc, ‹_›⟩
    · cases h
  case h_9 hc => exact admits_of_decodeAlu hc h
  case h_15 hc => exact admits_of_decodeKey hc h
  case h_16 hc => exact admits_of_decodeMisc hc h
  case h_17 => cases h
  -- the classes that select alone
  all_goals
    cases h
    exact (admits_mask_F000 (by decide)).mpr ‹_›

/-- A word in the row of `i` decodes to an instruction of that row, whatever the operands of `i`. The fields that select
are those of the row's bits, on which the decoder computes. -/
theorem row_decodeWord_of_admits {w : Word} {i : Instr} (h : i.row.admits w = true) :
    (decodeWord w).map Instr.row = some i.row := by
  cases i with
  | cls | ret =>
    rw [admits_mask_FFFF.mp h]
    rfl
  | jp | call | seImm | sneImm | ldImm | addImm | ldI | jpV0 | rnd | drw =>
    have hclass := (admits_mask_F000 (by decide)).mp h
    rw [decodeWord, hclass]
    rfl
  | seReg | sneReg =>
    obtain ⟨hclass, hnibble⟩ := (admits_mask_F00F (by decide)).mp h
    rw [decodeWord, hclass, hnibble]
    rfl
  | ldReg | orReg | andReg | xorReg | addReg | sub | shr | subn | shl =>
    obtain ⟨hclass, hnibble⟩ := (admits_mask_F00F (by decide)).mp h
    rw [decodeWord, hclass, decodeAlu, hnibble]
    rfl
  | skp | sknp =>
    obtain ⟨hclass, hbyte⟩ := (admits_mask_F0FF (by decide)).mp h
    rw [decodeWord, hclass, decodeKey, hbyte]
    rfl
  | ldVxDt | ldVxK | ldDtVx | ldStVx | addI | ldF | ldB | storeRegs | loadRegs =>
    obtain ⟨hclass, hbyte⟩ := (admits_mask_F0FF (by decide)).mp h
    rw [decodeWord, hclass, decodeMisc, hbyte]
    rfl

/-- What the decoder answers for a word that a row of the table admits. -/
theorem map_row_decodeWord_of_mem {w : Word} {r : Row} (hr : r ∈ opcodeRows) (h : r.admits w = true) :
    (decodeWord w).map Instr.row = some r := by
  obtain ⟨i, rfl⟩ := exists_row_eq_of_mem_opcodeRows hr
  exact row_decodeWord_of_admits h

/-- Settles O3: the row of the decoded instruction admits the word, and any row that admits it is that row. -/
theorem decodeAgreesWithTheOpcodeTable : Obligations.DecodeAgreesWithTheOpcodeTable := by
  intro w
  constructor
  · intro i hdec
    refine ⟨row_mem_opcodeRows i, row_admits_of_decodeWord hdec, fun r hr hadmits => ?_⟩
    have hrow := map_row_decodeWord_of_mem hr hadmits
    rw [hdec] at hrow
    exact (Option.some.inj hrow).symm
  · intro hdec r hr
    by_contra hne
    have hrow := map_row_decodeWord_of_mem hr (eq_true_of_ne_false hne)
    rw [hdec] at hrow
    cases hrow

end Sys2Proof
end

section
/-! PROOF. 00E0 (40_display.md R104): what it answers, and that clearing the display changes nothing but the pixels and
the dirty flag. -/

namespace Sys2Proof.Machine

/-- 00E0 always answers the state with the display cleared. -/
theorem exec_cls (s : State) : exec .cls s = .next s.clearDisplay := rfl

theorem clearDisplay_changesOnly (s : State) : ChangesOnly [.display, .dirty] s s.clearDisplay := by
  intro p hp
  cases p with
  | display | dirty => exact absurd (by decide) hp
  | v => exact s.reg_clearDisplay
  | mem => exact s.byte_clearDisplay
  | i | pc | stack | dt | st | keys | mode | diag | cfg | draws | events => rfl

/-- Settles O16: 00E0 answers `clearDisplay`, whose display is blank and whose frame is `clearDisplay_changesOnly`. -/
theorem clsBlanksTheDisplay : Obligations.ClsBlanksTheDisplay :=
  fun s => ⟨s.clearDisplay, exec_cls s, pixel_blankDisplay, s.clearDisplay_dirty, clearDisplay_changesOnly s⟩

end Sys2Proof.Machine
end

section
/-! PROOF. 1nnn (41_flow.md R121): what it answers, the value it gives PC, and that giving PC a value changes nothing
else. -/

namespace Sys2Proof.Machine

/-- 1nnn always answers the state with PC at the target. -/
theorem exec_jp (nnn : Addr12) (s : State) : exec (.jp nnn) s = .next (s.setPc (absolute nnn)) := rfl

/-- An absolute target is its 12-bit operand: zero extension keeps the value. -/
@[simp] theorem toNat_absolute (nnn : Addr12) : (absolute nnn).toNat = nnn.toNat :=
  Nat.mod_eq_of_lt (nnn.isLt.trans (by decide))

theorem setPc_changesOnly (s : State) (w : Word) : ChangesOnly [.pc] s (s.setPc w) := by
  intro p hp
  cases p with
  | pc => exact absurd (by decide) hp
  | v => exact s.reg_setPc w
  | mem => exact s.byte_setPc w
  | i | stack | dt | st | display | dirty | keys | mode | diag | cfg | draws | events => rfl

/-- Settles O23: 1nnn answers `setPc` to the absolute target, whose frame is `setPc_changesOnly`. -/
theorem jpSetsPc : Obligations.JpSetsPc :=
  fun nnn s => ⟨s.setPc (absolute nnn), exec_jp nnn s, toNat_absolute nnn, setPc_changesOnly s (absolute nnn)⟩

end Sys2Proof.Machine
end

section
/-! PROOF. The skips on registers (42_skip.md R141 to R144): each answers `skipIf` of its comparison, and `skipIf` gives
PC a value and does nothing else, so the four share one lemma. -/

namespace Sys2Proof.Machine

/-- A conditional skip is a `setPc`, to the next instruction or to where PC already is. -/
theorem skipIf_eq_setPc (s : State) (c : Bool) : s.skipIf c = s.setPc (if c then s.pc + 2 else s.pc) := by
  cases c with
  | false => rfl
  | true => rfl

theorem skipIf_pc (s : State) (c : Bool) : (s.skipIf c).pc = if c then s.pc + 2 else s.pc := by
  rw [skipIf_eq_setPc, State.setPc_pc]

theorem skipIf_changesOnly (s : State) (c : Bool) : ChangesOnly [.pc] s (s.skipIf c) := by
  rw [skipIf_eq_setPc]
  exact setPc_changesOnly s _

/-! What the four instructions answer. -/

theorem exec_seImm (x : Reg) (nn : Byte) (s : State) : exec (.seImm x nn) s = .next (s.skipIf (s.reg x == nn)) := rfl

theorem exec_sneImm (x : Reg) (nn : Byte) (s : State) : exec (.sneImm x nn) s = .next (s.skipIf (s.reg x != nn)) := rfl

theorem exec_seReg (x y : Reg) (s : State) : exec (.seReg x y) s = .next (s.skipIf (s.reg x == s.reg y)) := rfl

theorem exec_sneReg (x y : Reg) (s : State) : exec (.sneReg x y) s = .next (s.skipIf (s.reg x != s.reg y)) := rfl

/-- An instruction that answers `skipIf` of a test for `p` moves PC on by 2 exactly when `p` holds, and nothing else. -/
theorem exec_skips_of_iff {i : Instr} {s : State} {c : Bool} {p : Prop} [Decidable p]
    (hexec : exec i s = .next (s.skipIf c)) (htest : c = true ↔ p) :
    ∃ t, exec i s = .next t ∧ t.pc = (if p then s.pc + 2 else s.pc) ∧ ChangesOnly [.pc] s t :=
  ⟨s.skipIf c, hexec, (skipIf_pc s c).trans (if_congr htest rfl rfl), skipIf_changesOnly s c⟩

/-- Settles O26: each of the four answers `skipIf` of a test that decides its comparison. -/
theorem registerSkips : Obligations.RegisterSkips :=
  fun x y nn s =>
    ⟨exec_skips_of_iff (exec_seImm x nn s) beq_iff_eq,
      exec_skips_of_iff (exec_sneImm x nn s) bne_iff_ne,
      exec_skips_of_iff (exec_seReg x y s) beq_iff_eq,
      exec_skips_of_iff (exec_sneReg x y s) bne_iff_ne⟩

end Sys2Proof.Machine
end

section
/-! PROOF. The loads, the arithmetic and the logic (43_alu.md R162 to R172). An instruction here writes one register
(`setReg`), or VF and then its destination (8xy4 always so; the others by `flagThenResult`, R161). What the writes leave
unchanged is said once, then the value of each flag as a number; an obligation names what the instruction answers and
reads it off. -/

namespace Sys2Proof.Machine

/-! What the register writes leave unchanged. -/

theorem withV_changesOnly (s : State) (v : Vector Byte 16) : ChangesOnly [.v] s { s with v := v } := by
  intro p hp
  cases p with
  | v => exact absurd (by decide) hp
  | mem => exact fun _ => rfl
  | i | pc | stack | dt | st | display | dirty | keys | mode | diag | cfg | draws | events => rfl

theorem setReg_changesOnly (s : State) (x : Reg) (b : Byte) : ChangesOnly [.v] s (s.setReg x b) :=
  withV_changesOnly s _

theorem flagThenResult_changesOnly (s : State) (x y : Reg) (flag result : Byte → Byte → Byte) :
    ChangesOnly [.v] s (flagThenResult s x y flag result) := by
  rw [flagThenResult_eq]
  exact withV_changesOnly s _

theorem setReg_regsKept (s : State) (x : Reg) (b : Byte) : RegsKept [x] s (s.setReg x b) :=
  fun r hr => (s.reg_setReg x b r).trans (if_neg (mt List.mem_singleton.mpr hr))

/-- A register that is neither the destination nor VF keeps its value. -/
theorem flagThenResult_regsKept (s : State) (x y : Reg) (flag result : Byte → Byte → Byte) :
    RegsKept [x, VF] s (flagThenResult s x y flag result) := by
  intro r hr
  obtain ⟨hx, hF⟩ : r ≠ x ∧ r ≠ VF := by simpa using hr
  rw [reg_flagThenResult, if_neg hx, if_neg hF]

/-! What the two written registers hold. -/

theorem reg_setReg_same (s : State) (x : Reg) (b : Byte) : (s.setReg x b).reg x = b :=
  (s.reg_setReg x b x).trans (if_pos rfl)

theorem reg_flagThenResult_dest (s : State) (x y : Reg) (flag result : Byte → Byte → Byte) :
    (flagThenResult s x y flag result).reg x =
      result (sourceAfterFlag s (flag (s.reg x) (s.reg y)) x) (sourceAfterFlag s (flag (s.reg x) (s.reg y)) y) := by
  rw [reg_flagThenResult, if_pos rfl]

theorem reg_flagThenResult_VF (s : State) {x : Reg} (hx : x ≠ VF) (y : Reg) (flag result : Byte → Byte → Byte) :
    (flagThenResult s x y flag result).reg VF = flag (s.reg x) (s.reg y) := by
  rw [reg_flagThenResult, if_neg hx.symm, if_pos rfl]

/-- A source after the flag write, as the number that the obligations speak of. -/
theorem toNat_sourceAfterFlag (s : State) (flag : Byte) (r : Reg) :
    (sourceAfterFlag s flag r).toNat =
      if s.cfg.aliasOrder = .sequential ∧ r = VF then flag.toNat else (s.reg r).toNat :=
  apply_ite BitVec.toNat _ _ _

/-! The flags (R160) and the difference, as numbers. -/

@[simp] theorem toNat_bitByte (b : Bool) : (bitByte b).toNat = b.toNat := by
  cases b with
  | false => rfl
  | true => rfl

theorem carryFlag_eq_ite (a b : Byte) : carryFlag a b = if a.toNat + b.toNat > 255 then 1 else 0 := by
  simp only [carryFlag, bitByte, decide_eq_true_eq]

theorem toNat_noBorrowFlag (a b : Byte) : (noBorrowFlag a b).toNat = if a.toNat ≥ b.toNat then 1 else 0 := by
  rw [noBorrowFlag, toNat_bitByte, Bool.toNat, Bool.cond_decide]

theorem toNat_lowBitFlag (a : Byte) : (lowBitFlag a).toNat = a.toNat % 2 := by
  rw [lowBitFlag, toNat_bitByte, BitVec.getLsbD, Nat.toNat_testBit, pow_zero, Nat.div_one]

/-- A byte is below 256, so its quotient by 128 is bit 7 alone. -/
theorem toNat_highBitFlag (a : Byte) : (highBitFlag a).toNat = a.toNat / 128 := by
  have ha := a.isLt
  rw [highBitFlag, toNat_bitByte, BitVec.getLsbD, Nat.toNat_testBit]
  omega

/-- The difference modulo 256, in the form in which natural subtraction does not cut off. -/
theorem toNat_byte_sub (a b : Byte) : (a - b).toNat = (a.toNat + 256 - b.toNat) % 256 := by
  have hb := b.isLt
  rw [BitVec.toNat_sub]
  omega

/-! What the instructions with a flag answer. -/

theorem exec_addReg (x y : Reg) (s : State) :
    exec (.addReg x y) s =
      .next ((s.setReg VF (carryFlag (s.reg x) (s.reg y))).setReg x (s.reg x + s.reg y)) := rfl

theorem exec_sub (x y : Reg) (s : State) :
    exec (.sub x y) s = .next (flagThenResult s x y noBorrowFlag (fun a b => a - b)) := rfl

theorem exec_subn (x y : Reg) (s : State) :
    exec (.subn x y) s = .next (flagThenResult s x y (fun a b => noBorrowFlag b a) (fun a b => b - a)) := rfl

theorem exec_shr (x y : Reg) (s : State) :
    exec (.shr x y) s = .next (flagThenResult s x x (fun a _ => lowBitFlag a) (fun a _ => a >>> 1)) := rfl

theorem exec_shl (x y : Reg) (s : State) :
    exec (.shl x y) s = .next (flagThenResult s x x (fun a _ => highBitFlag a) (fun a _ => a <<< 1)) := rfl

/-! What the instructions without a flag answer. -/

theorem exec_ldImm (x : Reg) (nn : Byte) (s : State) : exec (.ldImm x nn) s = .next (s.setReg x nn) := rfl

theorem exec_addImm (x : Reg) (nn : Byte) (s : State) : exec (.addImm x nn) s = .next (s.setReg x (s.reg x + nn)) := rfl

theorem exec_ldReg (x y : Reg) (s : State) : exec (.ldReg x y) s = .next (s.setReg x (s.reg y)) := rfl

theorem exec_orReg (x y : Reg) (s : State) : exec (.orReg x y) s = .next (s.setReg x (s.reg x ||| s.reg y)) := rfl

theorem exec_andReg (x y : Reg) (s : State) : exec (.andReg x y) s = .next (s.setReg x (s.reg x &&& s.reg y)) := rfl

theorem exec_xorReg (x y : Reg) (s : State) : exec (.xorReg x y) s = .next (s.setReg x (s.reg x ^^^ s.reg y)) := rfl

/-- Settles O29: `g` is the no-borrow flag, and `a` and `b` are the two sources after the flag write. -/
theorem subUnderEitherAliasOrder : Obligations.SubUnderEitherAliasOrder := by
  intro x y s
  refine ⟨_, (noBorrowFlag (s.reg x) (s.reg y)).toNat, _, _, exec_sub x y s, toNat_noBorrowFlag ..,
    toNat_sourceAfterFlag s _ x, toNat_sourceAfterFlag s _ y, ?_, fun hx => ?_,
    flagThenResult_regsKept s x y _ _, flagThenResult_changesOnly s x y _ _⟩
  · rw [reg_flagThenResult_dest, toNat_byte_sub]
  · rw [reg_flagThenResult_VF s hx]

/-- Settles O30: as O29, with the minuend `Vy`. -/
theorem subnUnderEitherAliasOrder : Obligations.SubnUnderEitherAliasOrder := by
  intro x y s
  refine ⟨_, (noBorrowFlag (s.reg y) (s.reg x)).toNat, _, _, exec_subn x y s, toNat_noBorrowFlag ..,
    toNat_sourceAfterFlag s _ x, toNat_sourceAfterFlag s _ y, ?_, fun hx => ?_,
    flagThenResult_regsKept s x y _ _, flagThenResult_changesOnly s x y _ _⟩
  · rw [reg_flagThenResult_dest, toNat_byte_sub]
  · rw [reg_flagThenResult_VF s hx]

/-- Settles O31: `a` is the source after the flag write, and shifting it halves it. -/
theorem shrUnderEitherAliasOrder : Obligations.ShrUnderEitherAliasOrder := by
  intro x y s
  have hsource := toNat_sourceAfterFlag s (lowBitFlag (s.reg x)) x
  rw [toNat_lowBitFlag] at hsource
  refine ⟨_, _, exec_shr x y s, hsource, ?_, fun hx => ?_,
    flagThenResult_regsKept s x x _ _, flagThenResult_changesOnly s x x _ _⟩
  · rw [reg_flagThenResult_dest, BitVec.toNat_ushiftRight, Nat.shiftRight_eq_div_pow, pow_one]
  · rw [reg_flagThenResult_VF s hx, toNat_lowBitFlag]

/-- Settles O32: `a` is the source after the flag write, and shifting it doubles it modulo 256. -/
theorem shlUnderEitherAliasOrder : Obligations.ShlUnderEitherAliasOrder := by
  intro x y s
  have hsource := toNat_sourceAfterFlag s (highBitFlag (s.reg x)) x
  rw [toNat_highBitFlag] at hsource
  refine ⟨_, _, exec_shl x y s, hsource, ?_, fun hx => ?_,
    flagThenResult_regsKept s x x _ _, flagThenResult_changesOnly s x x _ _⟩
  · rw [reg_flagThenResult_dest, BitVec.toNat_shiftLeft, Nat.shiftLeft_eq, pow_one, Nat.mul_comm]
  · rw [reg_flagThenResult_VF s hx, toNat_highBitFlag]

/-- Settles O27: each of the six answers `setReg` at the destination, so the frames are those of `setReg`. -/
theorem loadsAndLogic : Obligations.LoadsAndLogic := by
  intro x y nn s
  have hframe (b : Byte) : RegsKept [x] s (s.setReg x b) ∧ ChangesOnly [.v] s (s.setReg x b) :=
    ⟨setReg_regsKept s x b, setReg_changesOnly s x b⟩
  refine ⟨⟨_, exec_ldImm x nn s, reg_setReg_same .., hframe _⟩,
    ⟨_, exec_addImm x nn s, ?_, hframe _⟩,
    ⟨_, exec_ldReg x y s, reg_setReg_same .., hframe _⟩,
    ⟨_, exec_orReg x y s, fun b => ?_, hframe _⟩,
    ⟨_, exec_andReg x y s, fun b => ?_, hframe _⟩,
    ⟨_, exec_xorReg x y s, fun b => ?_, hframe _⟩⟩
  · rw [reg_setReg_same, BitVec.toNat_add]
  · rw [reg_setReg_same, BitVec.getLsbD_or]
  · rw [reg_setReg_same, BitVec.getLsbD_and]
  · rw [reg_setReg_same, BitVec.getLsbD_xor]

/-- Settles O28: the sum is computed before the carry is written, and is written last. -/
theorem addWritesSumAndCarry : Obligations.AddWritesSumAndCarry := by
  intro x y s
  refine ⟨_, exec_addReg x y s, ?_, fun hx => ?_, fun r hr => ?_, withV_changesOnly s _⟩
  · rw [reg_setReg_same, BitVec.toNat_add]
  · rw [State.reg_setReg, if_neg hx.symm, reg_setReg_same, carryFlag_eq_ite]
  · obtain ⟨hx, hF⟩ : r ≠ x ∧ r ≠ VF := by simpa using hr
    rw [State.reg_setReg, if_neg hx, State.reg_setReg, if_neg hF]

end Sys2Proof.Machine
end

section
/-! PROOF. Annn (44_index_memory.md R200): what it answers, and that giving I a value changes nothing else. -/

namespace Sys2Proof.Machine

/-- Annn always answers the state with I at the operand. -/
theorem exec_ldI (nnn : Addr12) (s : State) : exec (.ldI nnn) s = .next (s.setI (absolute nnn)) := rfl

theorem setI_changesOnly (s : State) (w : Word) : ChangesOnly [.i] s (s.setI w) := by
  intro p hp
  cases p with
  | i => exact absurd (by decide) hp
  | v => exact s.reg_setI w
  | mem => exact s.byte_setI w
  | pc | stack | dt | st | display | dirty | keys | mode | diag | cfg | draws | events => rfl

/-- Settles O34: Annn answers `setI` to the zero-extended operand, whose frame is `setI_changesOnly`. -/
theorem ldISetsIndex : Obligations.LdISetsIndex :=
  fun nnn s => ⟨s.setI (absolute nnn), exec_ldI nnn s, toNat_absolute nnn, setI_changesOnly s (absolute nnn)⟩

end Sys2Proof.Machine
end

section
/-! PROOF. Fx0A and `setKeyUp` (45_keypad.md R236, R232): what they answer, and that giving the core a mode, or a key a
level, changes nothing else. -/

namespace Sys2Proof.Machine

/-- Fx0A always answers the state with the wait pending; no key is read. -/
theorem exec_ldVxK (x : Reg) (s : State) : exec (.ldVxK x) s = .next { s with mode := .awaitingKey x } := rfl

theorem withMode_changesOnly (s : State) (m : Mode) : ChangesOnly [.mode] s { s with mode := m } := by
  intro p hp
  cases p with
  | mode => exact absurd (by decide) hp
  | v | mem => exact fun _ => rfl
  | i | pc | stack | dt | st | display | dirty | keys | diag | cfg | draws | events => rfl

/-- Settles O43: Fx0A answers the state with its mode replaced, whose frame is `withMode_changesOnly`. -/
theorem fx0ASuspends : Obligations.Fx0ASuspends :=
  fun x s => ⟨_, exec_ldVxK x s, rfl, withMode_changesOnly s (.awaitingKey x)⟩

theorem keys_setKey_same (s : State) (k : Key) (level : Bool) : (s.setKey k level).keys[k.val] = level :=
  Vector.getElem_set_self k.isLt

theorem keys_setKey_of_ne (s : State) {j k : Key} (h : j ≠ k) (level : Bool) :
    (s.setKey k level).keys[j.val] = s.keys[j.val] :=
  Vector.getElem_set_ne k.isLt j.isLt (Fin.val_ne_of_ne h.symm)

theorem setKey_changesOnly (s : State) (k : Key) (level : Bool) : ChangesOnly [.keys] s (s.setKey k level) := by
  intro p hp
  cases p with
  | keys => exact absurd (by decide) hp
  | v => exact s.reg_setKey k level
  | mem => exact s.byte_setKey k level
  | i | pc | stack | dt | st | display | dirty | mode | diag | cfg | draws | events => rfl

/-- Settles O45: `setKeyUp` is `setKey` to false in every mode, so the rules of `setKey` are its own. -/
theorem setKeyUpReleasesTheKey : Obligations.SetKeyUpReleasesTheKey :=
  fun s k => ⟨keys_setKey_same s k false, fun _ hj => keys_setKey_of_ne s hj false, setKey_changesOnly s k false⟩

end Sys2Proof.Machine
end

section
/-! PROOF. Fx07, Fx15 and the tick (46_timers.md R253, R254, R251): what the two instructions answer, what a tick leaves
in each element it writes, and that nothing else changes. -/

namespace Sys2Proof.Machine

/-- Fx07 always answers the state with Vx at the delay timer. -/
theorem exec_ldVxDt (x : Reg) (s : State) : exec (.ldVxDt x) s = .next (s.setReg x s.dt) := rfl

/-- Fx15 always answers the state with the delay timer at Vx. -/
theorem exec_ldDtVx (x : Reg) (s : State) : exec (.ldDtVx x) s = .next (s.setDt (s.reg x)) := rfl

theorem setDt_changesOnly (s : State) (b : Byte) : ChangesOnly [.dt] s (s.setDt b) := by
  intro p hp
  cases p with
  | dt => exact absurd (by decide) hp
  | v => exact s.reg_setDt b
  | mem => exact s.byte_setDt b
  | i | pc | stack | st | display | dirty | keys | mode | diag | cfg | draws | events => rfl

/-- Settles O46: Fx07 answers `setReg` and Fx15 answers `setDt`, so the frames are those of the two writes. -/
theorem delayTimerInstructions : Obligations.DelayTimerInstructions :=
  fun x s =>
    ⟨⟨_, exec_ldVxDt x s, reg_setReg_same s x s.dt, setReg_regsKept s x s.dt, setReg_changesOnly s x s.dt⟩,
      ⟨_, exec_ldDtVx x s, s.setDt_dt (s.reg x), setDt_changesOnly s (s.reg x)⟩⟩

namespace State

variable (s : State)

@[simp] theorem toNat_tickTimers_dt : s.tickTimers.dt.toNat = s.dt.toNat - 1 := by
  rw [tickTimers_eq, toNat_tickedTimer]

@[simp] theorem toNat_tickTimers_st : s.tickTimers.st.toNat = s.st.toNat - 1 := by
  rw [tickTimers_eq, toNat_tickedTimer]

@[simp] theorem tickTimers_events :
    s.tickTimers.events = if s.st.toNat = 1 then s.events ++ [.soundStopped] else s.events := by
  rw [tickTimers_eq]

end State

theorem tickTimers_changesOnly (s : State) : ChangesOnly [.dt, .st, .events] s s.tickTimers := by
  rw [s.tickTimers_eq]
  intro p hp
  cases p with
  | dt | st | events => exact absurd (by decide) hp
  | v | mem => exact fun _ => rfl
  | i | pc | stack | display | dirty | keys | mode | diag | cfg | draws => rfl

/-- Settles O48: each clause reads one element off `tickTimers_eq`; the timers are floored at 0 as subtraction on
numbers is. -/
theorem tickDecrementsTheTimers : Obligations.TickDecrementsTheTimers :=
  fun s => ⟨s.toNat_tickTimers_dt, s.toNat_tickTimers_st, s.tickTimers_events, tickTimers_changesOnly s⟩

end Sys2Proof.Machine
end

section
/-! PROOF. The round trips of the encoder and the decoder (30_encoding.md R70 to R76; 20_memory.md R57). A format
packs its fields and the decoder reads them back, so each direction is one argument per format. -/

namespace Sys2Proof

/-! Decoding what each format packs. -/

theorem decodeWord_encode (i : Instr) : decodeWord (encode i) = some i := by
  cases i with
  | cls | ret => rfl
  | jp nnn | call nnn | ldI nnn | jpV0 nnn =>
    simp [encode, decodeWord, fieldC_packAddr, fieldNNN_packAddr]
  | seImm x nn | sneImm x nn | ldImm x nn | addImm x nn | rnd x nn =>
    simp [encode, decodeWord, fieldC_packXNN, fieldX_packXNN, fieldNN_packXNN]
  | seReg x y | sneReg x y =>
    simp [encode, decodeWord, fieldC_packXYN, fieldX_packXYN, fieldY_packXYN, low_packXYN]
  | ldReg x y | orReg x y | andReg x y | xorReg x y | addReg x y | sub x y | shr x y | subn x y | shl x y =>
    simp [encode, decodeWord, decodeAlu, fieldC_packXYN, fieldX_packXYN, fieldY_packXYN, low_packXYN]
  | drw x y n =>
    simp [encode, decodeWord, fieldC_packXYN, fieldX_packXYN, fieldY_packXYN, fieldN_packXYN]
  | skp x | sknp x =>
    simp [encode, decodeWord, decodeKey, fieldC_packXNN, fieldX_packXNN, low_packXNN]
  | ldVxDt x | ldVxK x | ldDtVx x | ldStVx x | addI x | ldF x | ldB x | storeRegs x | loadRegs x =>
    simp [encode, decodeWord, decodeMisc, fieldC_packXNN, fieldX_packXNN, low_packXNN]

/-- Settles O1: the word of the two bytes is the encoding, which decodes to the instruction. -/
theorem decodeOfEncodeIsTheInstruction : Obligations.DecodeOfEncodeIsTheInstruction := by
  intro i rest
  have hword := decodeWord_encode i
  refine ⟨hword, ?_⟩
  rw [decode, wordOfBytes_highByte_lowByte, hword]

/-! Encoding what each class decodes to. -/

theorem encode_of_decodeFixed {w : Word} {i : Instr} (h : decodeFixed w = some i) : encode i = w := by
  unfold decodeFixed at h
  split at h
  · next hw =>
    cases h
    exact hw.symm
  · split at h
    · next hw =>
      cases h
      exact hw.symm
    · cases h

theorem encode_of_decodeAlu {w : Word} {i : Instr} (hc : fieldC w = 0x8) (h : decodeAlu w = some i) :
    encode i = w := by
  unfold decodeAlu at h
  split at h <;> cases h <;> exact packXYN_fields hc ‹_›

theorem encode_of_decodeKey {w : Word} {i : Instr} (hc : fieldC w = 0xE) (h : decodeKey w = some i) :
    encode i = w := by
  unfold decodeKey at h
  split at h <;> cases h <;> exact packXNN_fields hc ‹_›

theorem encode_of_decodeMisc {w : Word} {i : Instr} (hc : fieldC w = 0xF) (h : decodeMisc w = some i) :
    encode i = w := by
  unfold decodeMisc at h
  split at h <;> cases h <;> exact packXNN_fields hc ‹_›

theorem encode_of_decodeWord {w : Word} {i : Instr} (h : decodeWord w = some i) : encode i = w := by
  unfold decodeWord at h
  split at h
  case h_1 => exact encode_of_decodeFixed h
  case h_2 hc | h_3 hc | h_11 hc | h_12 hc =>
    cases h
    exact packAddr_fields hc
  case h_4 hc | h_5 hc | h_7 hc | h_8 hc | h_13 hc =>
    cases h
    exact packXNN_fields hc (toNat_fieldNN w).symm
  case h_6 hc | h_10 hc =>
    split at h
    · cases h
      exact packXYN_fields hc ‹_›
    · cases h
  case h_9 hc => exact encode_of_decodeAlu hc h
  case h_14 hc =>
    cases h
    exact packXYN_fields hc (val_fieldN w).symm
  case h_15 hc => exact encode_of_decodeKey hc h
  case h_16 hc => exact encode_of_decodeMisc hc h
  case h_17 => cases h

/-- Settles O2: by the class of the word, each field goes back to where it was read. -/
theorem encodeOfDecodedWordIsTheWord : Obligations.EncodeOfDecodedWordIsTheWord :=
  fun _ _ h => encode_of_decodeWord h

/-- Settles O4: the decoder computes on words written out. -/
theorem writtenOutWordsDecode : Obligations.WrittenOutWordsDecode := by
  unfold Obligations.WrittenOutWordsDecode
  decide

end Sys2Proof
end

section
/-! PROOF. How frames compose, and the frame of each update that has none yet. An error writes the mode alone. -/

namespace Sys2Proof.Machine

theorem Part.same_refl (p : Part) (s : State) : p.same s s := by
  cases p with
  | v | mem => exact fun _ => rfl
  | i | pc | stack | dt | st | display | dirty | keys | mode | diag | cfg | draws | events => rfl

theorem Part.same_trans {p : Part} {s t u : State} (h : p.same s t) (k : p.same t u) : p.same s u := by
  cases p with
  | v | mem => exact fun a => (k a).trans (h a)
  | i | pc | stack | dt | st | display | dirty | keys | mode | diag | cfg | draws | events => exact Eq.trans k h

theorem ChangesOnly.refl (ps : List Part) (s : State) : ChangesOnly ps s s := fun p _ => p.same_refl s

theorem ChangesOnly.mono {ps qs : List Part} {s t : State} (h : ChangesOnly ps s t) (hsub : ps ⊆ qs) :
    ChangesOnly qs s t := fun p hp => h p (mt (@hsub p) hp)

theorem ChangesOnly.trans {ps : List Part} {s t u : State} (h : ChangesOnly ps s t) (k : ChangesOnly ps t u) :
    ChangesOnly ps s u := fun p hp => Part.same_trans (h p hp) (k p hp)

/-- Two updates, one after the other, change what either changes. -/
theorem ChangesOnly.comp {ps qs rs : List Part} {s t u : State} (h : ChangesOnly ps s t) (k : ChangesOnly qs t u)
    (hsub : ps ++ qs ⊆ rs) : ChangesOnly rs s u :=
  (h.mono (List.append_subset.mp hsub).1).trans (k.mono (List.append_subset.mp hsub).2)

theorem ChangesOnly.regsKept {ps : List Part} {s t : State} (h : ChangesOnly ps s t) (hv : Part.v ∉ ps)
    (rs : List Reg) : RegsKept rs s t := fun r _ => h .v hv r

/-! The updates that an instruction completes with, and the error. -/

theorem raise_changesOnly (s : State) (i : Instr) (e : FatalError) (d : Option Nat) :
    ChangesOnly [.mode] s (s.raise i e d) := withMode_changesOnly s _

theorem raiseFetch_changesOnly (s : State) (e : FatalError) (a : Nat) :
    ChangesOnly [.mode] s (s.raiseFetch e a) := withMode_changesOnly s _

theorem withStack_changesOnly (s : State) (stack : List Word) : ChangesOnly [.stack] s { s with stack := stack } := by
  intro p hp
  cases p with
  | stack => exact absurd (by decide) hp
  | v | mem => exact fun _ => rfl
  | i | pc | dt | st | display | dirty | keys | mode | diag | cfg | draws | events => rfl

theorem draw_changesOnly (s : State) : ChangesOnly [.draws] s s.draw.2 := by
  intro p hp
  cases p with
  | draws => exact absurd (by decide) hp
  | v | mem => exact fun _ => rfl
  | i | pc | stack | dt | st | display | dirty | keys | mode | diag | cfg | events => rfl

theorem setSt_changesOnly (s : State) (b : Byte) : ChangesOnly [.st, .events] s (s.setSt b) := by
  intro p hp
  cases p with
  | st | events => exact absurd (by decide) hp
  | v | mem => exact fun _ => rfl
  | i | pc | stack | dt | display | dirty | keys | mode | diag | cfg | draws => rfl

theorem drawn_changesOnly (s : State) (blit : Display × Bool) :
    ChangesOnly [.v, .display, .dirty] s (s.drawn blit) := by
  intro p hp
  cases p with
  | v | display | dirty => exact absurd (by decide) hp
  | mem => exact fun _ => rfl
  | i | pc | stack | dt | st | keys | mode | diag | cfg | draws | events => rfl

theorem drawn_regsKept (s : State) (blit : Display × Bool) : RegsKept [VF] s (s.drawn blit) :=
  fun r hr => (s.reg_drawn blit r).trans (if_neg (mt List.mem_singleton.mpr hr))

theorem writeBytes_changesOnly (s : State) (a : Nat) (bs : List Byte) :
    ChangesOnly [.mem] s (s.writeBytes a bs) := by
  intro p hp
  cases p with
  | mem => exact absurd (by decide) hp
  | v => exact s.reg_writeBytes a bs
  | i => exact s.writeBytes_i a bs
  | pc => exact s.writeBytes_pc a bs
  | stack => exact s.writeBytes_stack a bs
  | dt => exact s.writeBytes_dt a bs
  | st => exact s.writeBytes_st a bs
  | display => exact s.writeBytes_display a bs
  | dirty => exact s.writeBytes_dirty a bs
  | keys => exact s.writeBytes_keys a bs
  | mode => exact s.writeBytes_mode a bs
  | diag => exact s.writeBytes_diag a bs
  | cfg => exact s.writeBytes_cfg a bs
  | draws => exact s.writeBytes_draws a bs
  | events => exact s.writeBytes_events a bs

end Sys2Proof.Machine
end

section
/-! PROOF. The write matrix (10_state.md R38). What each instruction answers, in every case that it distinguishes: it
completes with one or two updates, or raises an error. The frames of the answers make up the matrix. -/

namespace Sys2Proof.Machine

/-! Cxnn, Fx1E and 8xy4, which complete with two updates. -/

theorem exec_rnd (x : Reg) (nn : Byte) (s : State) :
    exec (.rnd x nn) s = .next (s.draw.2.setReg x (nn &&& Config.rand8 s.draws)) := rfl

theorem rnd_changesOnly (x : Reg) (b : Byte) (s : State) : ChangesOnly [.v, .draws] s (s.draw.2.setReg x b) :=
  (draw_changesOnly s).comp (setReg_changesOnly _ x b) (by decide)

/-- Fx1E with and without the flag (R201). -/
theorem exec_addI (x : Reg) (s : State) :
    exec (.addI x) s = .next (
      if s.cfg.fx1eSetsVF then
        (s.setI (BitVec.ofNat 16 (s.i.toNat + (s.reg x).toNat))).setReg VF (indexFlag (s.i.toNat + (s.reg x).toNat))
      else s.setI (BitVec.ofNat 16 (s.i.toNat + (s.reg x).toNat))) := rfl

theorem addI_changesOnly (s : State) (w : Word) (flag : Byte) (c : Bool) :
    ChangesOnly [.i, .v] s (if c then (s.setI w).setReg VF flag else s.setI w) := by
  cases c with
  | true => exact (setI_changesOnly s w).comp (setReg_changesOnly _ VF flag) (by decide)
  | false => exact (setI_changesOnly s w).mono (by decide)

theorem addI_regsKept (s : State) (w : Word) (flag : Byte) (c : Bool) :
    RegsKept [VF] s (if c then (s.setI w).setReg VF flag else s.setI w) := by
  cases c with
  | true => exact setReg_regsKept (s.setI w) VF flag
  | false => exact fun r _ => s.reg_setI w r

theorem addReg_regsKept (s : State) (x : Reg) (flag sum : Byte) :
    RegsKept [x, VF] s ((s.setReg VF flag).setReg x sum) := by
  intro r hr
  obtain ⟨hx, hF⟩ : r ≠ x ∧ r ≠ VF := by simpa using hr
  rw [State.reg_setReg, if_neg hx, State.reg_setReg, if_neg hF]

/-! 00EE and 2nnn, on either stack. -/

theorem exec_ret_of_append {s : State} {below : List Word} {top : Word} (h : s.stack = below ++ [top]) :
    exec .ret s = .next (s.pop.setPc top) := by
  simp [exec, execRet, h]

theorem exec_ret_of_nil {s : State} (h : s.stack = []) :
    exec .ret s = .next (s.raise .ret .stackUnderflow none) := by
  simp [exec, execRet, h]

theorem exec_call_of_ne {s : State} (h : s.stack.length ≠ s.cfg.stackDepth) (nnn : Addr12) :
    exec (.call nnn) s = .next ((s.push s.pc).setPc (absolute nnn)) := if_neg h

theorem exec_call_of_full {s : State} (h : s.stack.length = s.cfg.stackDepth) (nnn : Addr12) :
    exec (.call nnn) s = .next (s.raise (.call nnn) .stackOverflow none) := if_pos h

theorem pop_setPc_changesOnly (s : State) (w : Word) : ChangesOnly [.pc, .stack] s (s.pop.setPc w) :=
  (withStack_changesOnly s _).comp (setPc_changesOnly s.pop w) (by decide)

theorem push_setPc_changesOnly (s : State) (v w : Word) : ChangesOnly [.pc, .stack] s ((s.push v).setPc w) :=
  (withStack_changesOnly s _).comp (setPc_changesOnly (s.push v) w) (by decide)

theorem exec_ret_cases {s t : State} (h : exec .ret s = .next t) :
    t = s.raise .ret .stackUnderflow none ∨ ∃ below top, s.stack = below ++ [top] ∧ t = s.pop.setPc top := by
  rcases List.eq_nil_or_concat s.stack with hs | ⟨below, top, hs⟩
  · rw [exec_ret_of_nil hs] at h
    cases h
    exact .inl rfl
  · rw [List.concat_eq_append] at hs
    rw [exec_ret_of_append hs] at h
    cases h
    exact .inr ⟨below, top, hs, rfl⟩

theorem exec_call_cases {nnn : Addr12} {s t : State} (h : exec (.call nnn) s = .next t) :
    t = s.raise (.call nnn) .stackOverflow none ∨
    (s.stack.length ≠ s.cfg.stackDepth ∧ t = (s.push s.pc).setPc (absolute nnn)) := by
  by_cases hs : s.stack.length = s.cfg.stackDepth
  · rw [exec_call_of_full hs] at h
    cases h
    exact .inl rfl
  · rw [exec_call_of_ne hs] at h
    cases h
    exact .inr ⟨hs, rfl⟩

/-! Ex9E and ExA1 on either side of the largest key code. -/

theorem skipOnKey_of_lt {x : Reg} {s : State} (h : (s.reg x).toNat < 16) (i : Instr) (level : Bool) :
    skipOnKey i x level s = .next (s.skipIf (s.keys[(s.reg x).toNat] == level)) := by
  rw [skipOnKey, keyAt_eq h]

theorem skipOnKey_of_ge {x : Reg} {s : State} (h : 16 ≤ (s.reg x).toNat) (i : Instr) (level : Bool) :
    skipOnKey i x level s = .next (s.raise i .keyIndexRange (some (s.reg x).toNat)) := by
  rw [skipOnKey, keyAt_none h]

theorem skipOnKey_cases {i : Instr} {x : Reg} {level : Bool} {s t : State} (h : skipOnKey i x level s = .next t) :
    t = s.raise i .keyIndexRange (some (s.reg x).toNat) ∨ ∃ c, t = s.skipIf c := by
  rcases Nat.lt_or_ge (s.reg x).toNat 16 with hk | hk
  · rw [skipOnKey_of_lt hk] at h
    cases h
    exact .inr ⟨_, rfl⟩
  · rw [skipOnKey_of_ge hk] at h
    cases h
    exact .inl rfl

theorem skipOnKey_changesOnly {i : Instr} {x : Reg} {level : Bool} {s t : State}
    (h : skipOnKey i x level s = .next t) : ChangesOnly [.pc, .mode] s t := by
  rcases skipOnKey_cases h with rfl | ⟨c, rfl⟩
  · exact (raise_changesOnly s i _ _).mono (by decide)
  · exact (skipIf_changesOnly s c).mono (by decide)

/-! The instructions that check a range first. -/

/-- What holds of the completed state and of every raised error holds of what a checked instruction answers. -/
theorem of_checked {P : State → Prop} {i : Instr} {s t done : State} {check : Nat → Option FatalError}
    {a n : Nat} (h : checked i s check a n done = .next t) (hdone : P done) (hraise : ∀ e d, P (s.raise i e d)) :
    P t := by
  rcases checked_cases i s check a n done with ⟨-, hc⟩ | ⟨e, bad, -, hc⟩
  · rw [hc] at h
    cases h
    exact hdone
  · rw [hc] at h
    cases h
    exact hraise e _

theorem checked_changesOnly {ps : List Part} {i : Instr} {s t done : State} {check : Nat → Option FatalError}
    {a n : Nat} (h : checked i s check a n done = .next t) (hdone : ChangesOnly ps s done) (hmode : [Part.mode] ⊆ ps) :
    ChangesOnly ps s t :=
  of_checked h hdone fun e d => (raise_changesOnly s i e d).mono hmode

theorem checked_regsKept {rs : List Reg} {i : Instr} {s t done : State} {check : Nat → Option FatalError}
    {a n : Nat} (h : checked i s check a n done = .next t) (hdone : RegsKept rs s done) : RegsKept rs s t :=
  of_checked h hdone fun e d => (raise_changesOnly s i e d).regsKept (by decide) rs

/-- The destinations of Fx65, V0 to Vx. -/
theorem mem_writesRegs_loadRegs {x r : Reg} : r ∈ (Instr.loadRegs x).writesRegs ↔ r ≤ x := by
  simp only [Instr.writesRegs, List.mem_map, List.mem_range]
  constructor
  · rintro ⟨k, hk, rfl⟩
    have hx := x.isLt
    rw [Fin.le_def, Fin.val_ofNat]
    omega
  · intro h
    rw [Fin.le_def] at h
    exact ⟨r.val, by omega, Fin.ofNat_val_eq_self r⟩

theorem reg_setRegsFrom (s : State) (bs : List Byte) (r : Reg) :
    ({ s with v := setRegsFrom s.v 0 bs } : State).reg r = if h : r.val < bs.length then bs[r.val] else s.reg r := by
  simp [State.reg, getElem_setRegsFrom s.v 0 bs r.isLt]

theorem reg_setRegsFrom_above {s : State} {x r : Reg} {bs : List Byte} (hbs : bs.length = x.val + 1) (h : x < r) :
    ({ s with v := setRegsFrom s.v 0 bs } : State).reg r = s.reg r := by
  rw [Fin.lt_def] at h
  rw [reg_setRegsFrom, dif_neg (by omega)]

/-! The matrix. -/

theorem exec_changesOnly {i : Instr} {s t : State} (h : exec i s = .next t) : ChangesOnly i.writes s t := by
  cases i with
  | cls =>
    cases h
    exact clearDisplay_changesOnly s
  | ret =>
    rcases exec_ret_cases h with rfl | ⟨below, top, -, rfl⟩
    · exact (raise_changesOnly s _ _ _).mono (by simp [Instr.writes])
    · exact (pop_setPc_changesOnly s top).mono (by simp [Instr.writes])
  | call nnn =>
    rcases exec_call_cases h with rfl | ⟨-, rfl⟩
    · exact (raise_changesOnly s _ _ _).mono (by simp [Instr.writes])
    · exact (push_setPc_changesOnly s _ _).mono (by simp [Instr.writes])
  | jp nnn | jpV0 nnn =>
    cases h
    exact setPc_changesOnly s _
  | seImm x nn | sneImm x nn | seReg x y | sneReg x y =>
    cases h
    exact skipIf_changesOnly s _
  | ldImm x nn | addImm x nn | ldReg x y | orReg x y | andReg x y | xorReg x y | addReg x y | ldVxDt x =>
    cases h
    exact withV_changesOnly s _
  | sub x y | subn x y | shr x y | shl x y =>
    cases h
    exact flagThenResult_changesOnly s _ _ _ _
  | ldI nnn | ldF x =>
    cases h
    exact setI_changesOnly s _
  | addI x =>
    cases h
    exact addI_changesOnly s _ _ _
  | rnd x nn =>
    cases h
    exact rnd_changesOnly x _ s
  | skp x | sknp x => exact skipOnKey_changesOnly h
  | ldVxK x =>
    cases h
    exact withMode_changesOnly s _
  | ldDtVx x =>
    cases h
    exact setDt_changesOnly s _
  | ldStVx x =>
    cases h
    exact setSt_changesOnly s _
  | drw x y n =>
    exact checked_changesOnly h ((drawn_changesOnly s _).mono (by simp [Instr.writes])) (by simp [Instr.writes])
  | ldB x | storeRegs x =>
    exact checked_changesOnly h ((writeBytes_changesOnly s _ _).mono (by simp [Instr.writes])) (by simp [Instr.writes])
  | loadRegs x =>
    exact checked_changesOnly h ((withV_changesOnly s _).mono (by simp [Instr.writes])) (by simp [Instr.writes])

/-- An instruction whose row does not list the registers writes none, so its row of registers does not matter. -/
theorem exec_regsKept {i : Instr} {s t : State} (h : exec i s = .next t) : RegsKept i.writesRegs s t := by
  cases i with
  | ldImm x nn | addImm x nn | ldReg x y | orReg x y | andReg x y | xorReg x y | ldVxDt x =>
    cases h
    exact setReg_regsKept s x _
  | addReg x y =>
    cases h
    exact addReg_regsKept s x _ _
  | sub x y | subn x y | shr x y | shl x y =>
    cases h
    exact flagThenResult_regsKept s x _ _ _
  | rnd x nn =>
    cases h
    exact setReg_regsKept s.draw.2 x _
  | addI x =>
    cases h
    exact addI_regsKept s _ _ _
  | drw x y n => exact checked_regsKept h (drawn_regsKept s _)
  | loadRegs x =>
    exact checked_regsKept h fun r hr => reg_setRegsFrom_above (s.length_readBytes _ _)
      (lt_of_not_ge (mt mem_writesRegs_loadRegs.mpr hr))
  | cls | ret | jp nnn | call nnn | seImm x nn | sneImm x nn | seReg x y | sneReg x y | ldI nnn | jpV0 nnn | skp x
  | sknp x | ldVxK x | ldDtVx x | ldStVx x | ldF x | ldB x | storeRegs x =>
    exact (exec_changesOnly h).regsKept (by simp [Instr.writes]) _

theorem exec_ldB_bytesKept {x : Reg} {s t : State} (h : exec (.ldB x) s = .next t) :
    BytesKept (s.indexed 0) 3 s t :=
  bytesKept_of_checked_writeBytes (bs := bcdDigits (s.reg x)) h

theorem exec_storeRegs_bytesKept {x : Reg} {s t : State} (h : exec (.storeRegs x) s = .next t) :
    BytesKept (s.indexed 0) (x.val + 1) s t := by
  rw [exec, execStoreRegs, ← s.length_regsUpTo x] at h
  rw [← s.length_regsUpTo x]
  exact bytesKept_of_checked_writeBytes h

/-- Settles O51: elements and registers by cases on the instruction, bytes by the two that store. -/
theorem instructionsWriteOnlyWhatTheMatrixLists : Obligations.InstructionsWriteOnlyWhatTheMatrixLists := by
  intro i s t h
  refine ⟨exec_changesOnly h, exec_regsKept h, ?_, ?_⟩
  · rintro x rfl
    exact exec_ldB_bytesKept h
  · rintro x rfl
    exact exec_storeRegs_bytesKept h

end Sys2Proof.Machine
end

section
/-! PROOF. What a step does with an error and with a report (60_exceptions.md R271 to R276; 10_state.md R33). The
record of an error is legal and names the fetched word; an instruction never writes the reports (the write matrix). -/

namespace Sys2Proof.Machine

theorem not_mem_writes {p : Part} (hp : p ∈ [Part.keys, .diag, .cfg]) (i : Instr) : p ∉ i.writes := by
  simp only [List.mem_cons, List.not_mem_nil, or_false] at hp
  rcases hp with rfl | rfl | rfl <;> cases i <;> simp [Instr.writes]

theorem exec_diag {i : Instr} {s t : State} (h : exec i s = .next t) : t.diag = s.diag :=
  exec_changesOnly h .diag (not_mem_writes (by decide) i)

theorem exec_cfg {i : Instr} {s t : State} (h : exec i s = .next t) : t.cfg = s.cfg :=
  exec_changesOnly h .cfg (not_mem_writes (by decide) i)

/-! Errors. -/

/-- What an instruction raises makes a legal record. -/
theorem Raises.legal {i : Instr} {s : State} {e : FatalError} {d : Option Nat} (h : Raises i s e d) (a w : Word) :
    ErrorRecord.legal ⟨e, a, some w, d⟩ := by
  rcases h with ⟨-, rfl, rfl⟩ | ⟨nnn, -, rfl, rfl⟩ | ⟨-, b, rfl, ⟨rfl, hb⟩ | ⟨rfl, hb⟩⟩ | ⟨hkey, rfl, k, hd, hk⟩
  · exact ⟨rfl, rfl⟩
  · exact ⟨rfl, rfl⟩
  · exact ⟨b, rfl, hb⟩
  · exact ⟨rfl, b, rfl, hb⟩
  · obtain ⟨x, hx⟩ : ∃ x, d = some (s.reg x).toNat := by
      rcases hkey with ⟨x, -, hx⟩ | ⟨x, -, hx⟩ <;> exact ⟨x, hx⟩
    have hkx : k = (s.reg x).toNat := Option.some.inj (hd.symm.trans hx)
    exact ⟨rfl, k, hd, hk, hkx ▸ Nat.le_of_lt_succ (s.reg x).isLt⟩

theorem raiseFetch_legal (a : Word) {b : Nat} (hb : memSize ≤ b) :
    ErrorRecord.legal ⟨.memoryBounds, a, none, some b⟩ := ⟨b, rfl, hb⟩

theorem skip_changesOnly (s : State) : ChangesOnly [.pc] s s.skip := setPc_changesOnly s _

/-- The instruction that raises stands where PC was before the fetch advanced it. -/
theorem skip_raise_mode (s : State) (i : Instr) (e : FatalError) (d : Option Nat) :
    (s.skip.raise i e d).mode = .halted ⟨e, s.pc, some (encode i), d⟩ := by
  rw [State.raise_mode, State.skip_pc, BitVec.add_sub_cancel]

/-- A step that halts failed in the fetch, or the instruction it fetched raised an error. -/
theorem step_halts_cases {s t : State} {r : ErrorRecord} (hrun : s.mode = .running) (h : step s = .next t)
    (hr : t.mode = .halted r) :
    (¬ Readable s.pc.toNat 2 ∧ t = s.raiseFetch .memoryBounds (max s.pc.toNat memSize)) ∨
    (∃ i e d, decodeWord (s.wordAt s.pc.toNat) = some i ∧ Raises i s.skip e d ∧ t = s.skip.raise i e d) := by
  rcases step_cases h with ⟨hm, -⟩ | ⟨-, hread, rfl⟩ | ⟨-, -, i, hdec, hexec⟩ | ⟨-, -, -, rfl⟩
  · exact absurd hrun hm
  · exact .inl ⟨hread, rfl⟩
  · rcases exec_cases hexec with ⟨e, d, hraise, rfl⟩ | ⟨x, -, rfl⟩ | hkeep
    · exact .inr ⟨i, e, d, hdec, hraise, rfl⟩
    · cases hr
    · rw [hkeep, State.skip_mode, hrun] at hr
      cases hr
  · rw [State.report_mode, State.skip_mode, hrun] at hr
    cases hr

/-- Settles O52: the two ways a step halts; the encoding of the instruction is the word it was decoded from. -/
theorem fatalErrorsArePrecise : Obligations.FatalErrorsArePrecise := by
  intro s t r hrun hstep hr
  rcases step_halts_cases hrun hstep hr with ⟨hread, rfl⟩ | ⟨i, e, d, hdec, hraise, rfl⟩
  · obtain rfl : _ = r := Mode.halted.inj ((s.raiseFetch_mode _ _).symm.trans hr)
    have hpc : 4096 ≤ s.pc.toNat + 1 := by
      simp only [Readable, memSize] at hread
      omega
    exact ⟨(raiseFetch_changesOnly s _ _).mono (by decide), rfl, raiseFetch_legal _ (le_max_right _ _),
      .inl ⟨rfl, rfl, rfl, hpc⟩⟩
  · obtain rfl : _ = r := Mode.halted.inj ((skip_raise_mode s i e d).symm.trans hr)
    exact ⟨(skip_changesOnly s).comp (raise_changesOnly s.skip i e d) (by decide), rfl, hraise.legal _ _,
      .inr ⟨congrArg some (encode_of_decodeWord hdec), rfl⟩⟩

/-! Reports. -/

/-- Settles O53: an instruction writes no report, an error neither, and an unknown word one. -/
theorem diagnosticLogOnlyGrows : Obligations.DiagnosticLogOnlyGrows := by
  intro s t h
  rcases step_cases h with ⟨-, rfl⟩ | ⟨-, -, rfl⟩ | ⟨-, -, i, -, hexec⟩ | ⟨hrun, -, hdec, rfl⟩
  · exact .inl rfl
  · exact .inl rfl
  · exact .inl ((exec_diag hexec).trans s.skip_diag)
  · exact .inr ⟨hrun, hdec, rfl⟩

end Sys2Proof.Machine
end

section
/-! PROOF. What an instruction can do to memory, to the stack and to PC, said once for each (20_memory.md R56;
10_state.md R24; 30_encoding.md R74). -/

namespace Sys2Proof.Machine

theorem checked_store_mem_cases {i : Instr} {s t : State} {a : Nat} {bs : List Byte} (hbs : 0 < bs.length)
    (h : checked i s (checkWrite s.cfg.fontPolicy) a bs.length (s.writeBytes a bs) = .next t) :
    t.mem = s.mem ∨ (Writable s.cfg a bs.length ∧ t.mem = (s.writeBytes a bs).mem) := by
  rcases checked_cases i s (checkWrite s.cfg.fontPolicy) a bs.length (s.writeBytes a bs) with ⟨hw, hc⟩ | ⟨e, bad, -, hc⟩
  · rw [hc] at h
    cases h
    exact .inr ⟨(firstFailure_checkWrite_none hbs).mp hw, rfl⟩
  · rw [hc] at h
    cases h
    exact .inl rfl

/-- An instruction leaves memory as it is, or stores bytes where they can be stored. -/
theorem exec_mem_cases {i : Instr} {s t : State} (h : exec i s = .next t) :
    t.mem = s.mem ∨
    ∃ bs, Writable s.cfg (s.indexed 0) bs.length ∧ t.mem = (s.writeBytes (s.indexed 0) bs).mem := by
  cases i with
  | ldB x => exact (checked_store_mem_cases (bs := bcdDigits (s.reg x)) (Nat.succ_pos _) h).imp_right fun hw => ⟨_, hw⟩
  | storeRegs x =>
    rw [exec, execStoreRegs, ← s.length_regsUpTo x] at h
    exact (checked_store_mem_cases (by simp) h).imp_right fun hw => ⟨_, hw⟩
  | drw x y n | loadRegs x => exact .inl (of_checked (P := fun u => u.mem = s.mem) h rfl fun _ _ => rfl)
  | ret =>
    rcases exec_ret_cases h with rfl | ⟨_, _, -, rfl⟩
    · exact .inl rfl
    · exact .inl rfl
  | call nnn =>
    rcases exec_call_cases h with rfl | ⟨-, rfl⟩
    · exact .inl rfl
    · exact .inl rfl
  | skp x | sknp x =>
    rcases skipOnKey_cases h with rfl | ⟨c, rfl⟩
    · exact .inl rfl
    · exact .inl (by rw [skipIf_eq_setPc, State.setPc_mem])
  | seImm x nn | sneImm x nn | seReg x y | sneReg x y =>
    cases h
    exact .inl (by rw [skipIf_eq_setPc, State.setPc_mem])
  | sub x y | subn x y | shr x y | shl x y =>
    cases h
    exact .inl (by rw [flagThenResult_eq])
  | addI x =>
    cases h
    exact .inl (by split <;> rfl)
  | cls | jp nnn | ldImm x nn | addImm x nn | ldReg x y | orReg x y | andReg x y | xorReg x y | addReg x y | ldI nnn
  | jpV0 nnn | rnd x nn | ldVxDt x | ldVxK x | ldDtVx x | ldStVx x | ldF x =>
    cases h
    exact .inl rfl

/-- An instruction leaves the stack as it is, pops an entry, or pushes PC where there is room. -/
theorem exec_stack_cases {i : Instr} {s t : State} (h : exec i s = .next t) :
    t.stack = s.stack ∨ t.stack = s.stack.dropLast ∨
    (s.stack.length ≠ s.cfg.stackDepth ∧ t.stack = s.stack ++ [s.pc]) := by
  by_cases hp : Part.stack ∈ i.writes
  · cases i with
    | ret =>
      rcases exec_ret_cases h with rfl | ⟨_, _, -, rfl⟩
      · exact .inl rfl
      · exact .inr (.inl rfl)
    | call nnn =>
      rcases exec_call_cases h with rfl | ⟨hroom, rfl⟩
      · exact .inl rfl
      · exact .inr (.inr ⟨hroom, rfl⟩)
    | _ => simp [Instr.writes] at hp
  · exact .inl (exec_changesOnly h .stack hp)

theorem skipIf_pc_cases (s : State) (c : Bool) : (s.skipIf c).pc = s.pc ∨ (s.skipIf c).pc = s.pc + 2 := by
  cases c with
  | true => exact .inr rfl
  | false => exact .inl rfl

/-- Where an instruction can leave PC. -/
theorem exec_pc_cases {i : Instr} {s t : State} (h : exec i s = .next t) :
    t.pc = s.pc ∨ t.pc = s.pc + 2 ∨ t.pc ∈ s.stack ∨ (∃ nnn, t.pc = absolute nnn) ∨ ∃ nnn, t.pc = s.basePlusV0 nnn := by
  by_cases hp : Part.pc ∈ i.writes
  · cases i with
    | ret =>
      rcases exec_ret_cases h with rfl | ⟨_, _, hs, rfl⟩
      · exact .inl rfl
      · exact .inr (.inr (.inl (by simp [hs])))
    | call nnn =>
      rcases exec_call_cases h with rfl | ⟨-, rfl⟩
      · exact .inl rfl
      · exact .inr (.inr (.inr (.inl ⟨nnn, rfl⟩)))
    | jp nnn =>
      cases h
      exact .inr (.inr (.inr (.inl ⟨nnn, rfl⟩)))
    | jpV0 nnn =>
      cases h
      exact .inr (.inr (.inr (.inr ⟨nnn, rfl⟩)))
    | seImm x nn | sneImm x nn | seReg x y | sneReg x y =>
      cases h
      exact (skipIf_pc_cases s _).imp_right .inl
    | skp x | sknp x =>
      rcases skipOnKey_cases h with rfl | ⟨c, rfl⟩
      · exact .inl rfl
      · exact (skipIf_pc_cases s c).imp_right .inl
    | _ => simp [Instr.writes] at hp
  · exact .inl (exec_changesOnly h .pc hp)

/-- The exact sum of a 12-bit address and a byte fits a word (R123). -/
theorem toNat_basePlusV0 (s : State) (nnn : Addr12) :
    (s.basePlusV0 nnn).toNat = nnn.toNat + (s.reg 0).toNat := by
  have ha := nnn.isLt
  have hb := (s.reg 0).isLt
  simp only [State.basePlusV0, zext12, zext8, BitVec.toNat_add, BitVec.toNat_ofNat]
  omega

theorem exec_pc_le {i : Instr} {s t : State} (h : exec i s = .next t) (hpc : s.pc.toNat ≤ 0x1000)
    (hreturns : ∀ a ∈ s.stack, a.toNat ≤ 0x1000) : t.pc.toNat ≤ 0x10FE := by
  rcases exec_pc_cases h with e | e | hmem | ⟨nnn, e⟩ | ⟨nnn, e⟩
  · rw [e]
    omega
  · rw [e, BitVec.toNat_add, show (2 : Word).toNat = 2 from rfl]
    omega
  · exact (hreturns _ hmem).trans (by decide)
  · have ha := nnn.isLt
    rw [e, toNat_absolute]
    omega
  · have ha := nnn.isLt
    have hb := (s.reg 0).isLt
    rw [e, toNat_basePlusV0]
    omega

end Sys2Proof.Machine
end

section
/-! PROOF. The invariant: reset satisfies it, and each part of it is kept by an instruction that runs at a PC which a
fetch inside the memory leaves (10_state.md R24, R33; 30_encoding.md R74). -/

namespace Sys2Proof.Machine

/-- A state with the memory, the stack, PC, the reports and the parameters of one that satisfies the invariant satisfies
it, as long as its error record is legal. -/
theorem State.Inv.congr {s t : State} (h : s.Inv) (hmem : t.mem = s.mem) (hstack : t.stack = s.stack)
    (hpc : t.pc = s.pc) (hdiag : t.diag = s.diag) (hcfg : t.cfg = s.cfg)
    (hrecord : ∀ r, t.mode = .halted r → r.legal) : t.Inv where
  mem := by rw [hmem, hcfg]; exact h.mem
  depth := by rw [hstack, hcfg]; exact h.depth
  returns := by rw [hstack]; exact h.returns
  pc := by rw [hpc]; exact h.pc
  diag := by rw [hdiag]; exact h.diag
  record := hrecord

theorem resetWith_inv (p : Params) : (State.resetWith p).Inv where
  mem := Memory.wf_nil _
  depth := Nat.zero_le _
  returns := fun _ ha => absurd ha List.not_mem_nil
  pc := (by decide : pcReset.toNat ≤ 0x10FE)
  diag := fun _ hr => absurd hr List.not_mem_nil
  record := fun _ hr => by cases hr

/-- Settles O54: `State.reset` is `State.resetWith` of some parameters. -/
theorem resetSatisfiesTheInvariant : Obligations.ResetSatisfiesTheInvariant := ⟨resetWith_inv _, resetWith_inv⟩

theorem toNat_skip_pc {s : State} (hread : Readable s.pc.toNat 2) : s.skip.pc.toNat = s.pc.toNat + 2 := by
  simp only [Readable, memSize] at hread
  rw [State.skip_pc, BitVec.toNat_add, show (2 : Word).toNat = 2 from rfl]
  omega

theorem toNat_skip_pc_le {s : State} (hread : Readable s.pc.toNat 2) : s.skip.pc.toNat ≤ 0x1000 := by
  rw [toNat_skip_pc hread]
  simp only [Readable, memSize] at hread
  omega

theorem skip_inv {s : State} (h : s.Inv) (hread : Readable s.pc.toNat 2) : s.skip.Inv where
  mem := h.mem
  depth := h.depth
  returns := h.returns
  pc := (toNat_skip_pc_le hread).trans (by decide)
  diag := h.diag
  record := h.record

theorem report_inv {s : State} (h : s.Inv) {a w : Word} (hdec : decodeWord w = none) (ha : a.toNat + 1 < memSize) :
    (s.report a w).Inv where
  mem := h.mem
  depth := h.depth
  returns := h.returns
  pc := h.pc
  diag := by
    intro r hr
    rcases List.mem_append.mp hr with hr | hr
    · exact h.diag r hr
    · rw [List.mem_singleton.mp hr]
      exact ⟨hdec, ha⟩
  record := h.record

theorem writeBytes_inv {s : State} (h : s.Inv) {a : Nat} {bs : List Byte} (ha : a + bs.length ≤ memSize) :
    (s.writeBytes a bs).Inv where
  mem := by
    rw [State.writeBytes_cfg]
    exact s.writeBytes_wf h.mem ha
  depth := by
    rw [State.writeBytes_stack, State.writeBytes_cfg]
    exact h.depth
  returns := by
    rw [State.writeBytes_stack]
    exact h.returns
  pc := by
    rw [State.writeBytes_pc]
    exact h.pc
  diag := by
    rw [State.writeBytes_diag]
    exact h.diag
  record := by
    rw [State.writeBytes_mode]
    exact h.record

theorem exec_mem_wf {i : Instr} {s t : State} (h : exec i s = .next t) (hwf : Memory.wf s.cfg.font s.mem) :
    Memory.wf t.cfg.font t.mem := by
  rw [exec_cfg h]
  rcases exec_mem_cases h with hmem | ⟨bs, hw, hmem⟩
  · rw [hmem]
    exact hwf
  · rw [hmem]
    exact s.writeBytes_wf hwf hw.1

theorem exec_stack_bounded {i : Instr} {s t : State} (h : exec i s = .next t)
    (hdepth : s.stack.length ≤ s.cfg.stackDepth) : t.stack.length ≤ t.cfg.stackDepth := by
  rw [exec_cfg h]
  rcases exec_stack_cases h with e | e | ⟨hroom, e⟩
  · rw [e]
    exact hdepth
  · rw [e, List.length_dropLast]
    omega
  · rw [e, List.length_append, List.length_singleton]
    omega

theorem exec_returns_le {i : Instr} {s t : State} (h : exec i s = .next t) (hpc : s.pc.toNat ≤ 0x1000)
    (hreturns : ∀ a ∈ s.stack, a.toNat ≤ 0x1000) : ∀ a ∈ t.stack, a.toNat ≤ 0x1000 := by
  intro a ha
  rcases exec_stack_cases h with e | e | ⟨-, e⟩
  · exact hreturns a (e ▸ ha)
  · exact hreturns a (List.mem_of_mem_dropLast (e ▸ ha))
  · rcases List.mem_append.mp (e ▸ ha) with ha | ha
    · exact hreturns a ha
    · rw [List.mem_singleton.mp ha]
      exact hpc

theorem exec_record_legal {i : Instr} {s t : State} (h : exec i s = .next t)
    (hrecord : ∀ r, s.mode = .halted r → r.legal) : ∀ r, t.mode = .halted r → r.legal := by
  intro r hr
  rcases exec_cases h with ⟨e, d, hraise, rfl⟩ | ⟨x, -, rfl⟩ | hkeep
  · cases hr
    exact hraise.legal _ _
  · cases hr
  · exact hrecord r (hkeep ▸ hr)

theorem exec_inv {i : Instr} {s t : State} (h : exec i s = .next t) (hinv : s.Inv) (hpc : s.pc.toNat ≤ 0x1000) :
    t.Inv where
  mem := exec_mem_wf h hinv.mem
  depth := exec_stack_bounded h hinv.depth
  returns := exec_returns_le h hpc hinv.returns
  pc := exec_pc_le h hpc hinv.returns
  diag := by
    rw [exec_diag h]
    exact hinv.diag
  record := exec_record_legal h hinv.record

theorem step_inv {s t : State} (hinv : s.Inv) (h : step s = .next t) : t.Inv := by
  rcases step_cases h with ⟨-, rfl⟩ | ⟨-, -, rfl⟩ | ⟨-, hread, i, -, hexec⟩ | ⟨-, hread, hdec, rfl⟩
  · exact hinv
  · refine hinv.congr rfl rfl rfl rfl rfl fun r hr => ?_
    cases hr
    exact raiseFetch_legal _ (le_max_right _ _)
  · exact exec_inv hexec (skip_inv hinv hread) (toNat_skip_pc_le hread)
  · refine report_inv (skip_inv hinv hread) hdec ?_
    simp only [Readable, memSize] at hread ⊢
    omega

/-- Settles O55: after the fetch PC is at most 0x1000, from where the instruction keeps each part of the invariant. -/
theorem stepKeepsTheInvariant : Obligations.StepKeepsTheInvariant := fun _ _ => step_inv

end Sys2Proof.Machine
end

section
/-! PROOF. The frames of the host's moves, `setKeyDown` in the wait and outside it (60_exceptions.md R290;
45_keypad.md R231). -/

namespace Sys2Proof.Machine

theorem setKeyDown_changesOnly_of_not_awaitingKey {s : State} (h : ∀ x, s.mode ≠ .awaitingKey x) (k : Key) :
    ChangesOnly [.keys] s (s.setKeyDown k) := by
  rw [s.setKeyDown_of_not_awaitingKey h]
  exact setKey_changesOnly s k true

theorem setKeyDown_changesOnly (s : State) (k : Key) : ChangesOnly [.v, .keys, .mode] s (s.setKeyDown k) := by
  by_cases hw : ∃ x, s.mode = .awaitingKey x
  · obtain ⟨x, hx⟩ := hw
    rw [s.setKeyDown_of_awaitingKey hx]
    exact ((setKey_changesOnly s k true).comp (setReg_changesOnly _ x _) (rs := [.v, .keys]) (by decide)).comp
      (withMode_changesOnly _ _) (by decide)
  · exact (setKeyDown_changesOnly_of_not_awaitingKey (not_exists.mp hw) k).mono (by decide)

theorem setKeyDown_keys (s : State) (k : Key) : (s.setKeyDown k).keys = (s.setKey k true).keys := by
  by_cases hw : ∃ x, s.mode = .awaitingKey x
  · obtain ⟨x, hx⟩ := hw
    rw [s.setKeyDown_of_awaitingKey hx]
    rfl
  · rw [s.setKeyDown_of_not_awaitingKey (not_exists.mp hw)]

theorem reg_setKeyDown_of_awaitingKey {s : State} {x : Reg} (h : s.mode = .awaitingKey x) (k : Key) (r : Reg) :
    (s.setKeyDown k).reg r = if r = x then BitVec.ofNat 8 k.val else s.reg r := by
  rw [s.setKeyDown_of_awaitingKey h]
  exact (s.setKey k true).reg_setReg x _ r

/-- Settles O44: the keys are those of `setKey`; in the wait Vx gets the code, which fits a byte. -/
theorem setKeyDownResolvesTheWait : Obligations.SetKeyDownResolvesTheWait := by
  intro s k
  rw [setKeyDown_keys]
  refine ⟨keys_setKey_same s k true, fun j hj => keys_setKey_of_ne s hj true, fun x hx => ⟨?_, ?_, fun r hr => ?_,
    setKeyDown_changesOnly s k⟩, fun hw => setKeyDown_changesOnly_of_not_awaitingKey hw k⟩
  · rw [s.setKeyDown_of_awaitingKey hx]
  · rw [reg_setKeyDown_of_awaitingKey hx, if_pos rfl, BitVec.toNat_ofNat]
    exact Nat.mod_eq_of_lt (k.isLt.trans (by decide))
  · rw [reg_setKeyDown_of_awaitingKey hx, if_neg (mt List.mem_singleton.mpr hr)]

/-! The frames of the other moves. -/

theorem consumeFrame_changesOnly (s : State) : ChangesOnly [.dirty] s s.consumeFrame.2 := by
  intro p hp
  cases p with
  | dirty => exact absurd (by decide) hp
  | v | mem => exact fun _ => rfl
  | i | pc | stack | dt | st | display | keys | mode | diag | cfg | draws | events => rfl

theorem setKeyUp_changesOnly (s : State) (k : Key) : ChangesOnly [.keys] s (s.setKeyUp k) :=
  setKey_changesOnly s k false

theorem loadProgram_changesOnly {s t : State} {bytes : List Byte} (h : s.loadProgram bytes = some t) :
    ChangesOnly [.mem] s t := by
  obtain ⟨-, rfl⟩ := s.loadProgram_eq_some h
  exact writeBytes_changesOnly s loadBase bytes

end Sys2Proof.Machine
end

section
/-! PROOF. What every run keeps (70_reset_and_hazards.md R337): the parameters, the invariant, and the font under the
fault policy (20_memory.md R52, R56). A claim about every run is one about every move. -/

namespace Sys2Proof.Machine

/-! The parameters. -/

theorem step_cfg {s t : State} (h : step s = .next t) : t.cfg = s.cfg := by
  rcases step_cases h with ⟨-, rfl⟩ | ⟨-, -, rfl⟩ | ⟨-, -, i, -, hexec⟩ | ⟨-, -, -, rfl⟩
  · rfl
  · rfl
  · exact (exec_cfg hexec).trans s.skip_cfg
  · rfl

theorem transition_cfg {e : Event} {x y : Session} {rsp : Response} (h : transition e x = .next (y, rsp)) :
    y.core.cfg = x.core.cfg := by
  rcases transition_cases h with ⟨-, hy⟩ | ⟨bytes, -, -, hy | hload⟩ | ⟨-, hstep⟩ | ⟨-, hy⟩ | ⟨k, -, hy⟩ | ⟨k, -, hy⟩ |
    ⟨-, hy⟩
  · rw [hy]
    rfl
  · rw [hy]
  · exact loadProgram_changesOnly hload .cfg (by decide)
  · exact step_cfg hstep
  · rw [hy]
    exact tickTimers_changesOnly _ .cfg (by decide)
  · rw [hy]
    exact setKeyDown_changesOnly _ k .cfg (by decide)
  · rw [hy]
    exact setKeyUp_changesOnly _ k .cfg (by decide)
  · rw [hy]
    exact consumeFrame_changesOnly _ .cfg (by decide)

/-- Settles O58: no move changes the parameters, so no run does. -/
theorem parametersNeverChange : Obligations.ParametersNeverChange := fun _ _ _ h =>
  runEvents_induction (P := fun s t => t.cfg = s.cfg) (fun _ => rfl) (fun h k => k.trans h) transition_cfg h

/-! The invariant. -/

theorem hostReset_inv (s : State) : s.hostReset.Inv :=
  (resetWith_inv s.cfg).congr rfl rfl rfl rfl rfl (resetWith_inv s.cfg).record

theorem loadProgram_inv {s t : State} {bytes : List Byte} (hinv : s.Inv) (h : s.loadProgram bytes = some t) :
    t.Inv := by
  obtain ⟨hlen, rfl⟩ := s.loadProgram_eq_some h
  refine writeBytes_inv hinv ?_
  simp only [maxImage, memSize, loadBase] at hlen ⊢
  omega

theorem tickTimers_inv {s : State} (hinv : s.Inv) : s.tickTimers.Inv := by
  rw [s.tickTimers_eq]
  exact hinv.congr rfl rfl rfl rfl rfl hinv.record

theorem setKeyDown_inv {s : State} (hinv : s.Inv) (k : Key) : (s.setKeyDown k).Inv := by
  by_cases hw : ∃ x, s.mode = .awaitingKey x
  · obtain ⟨x, hx⟩ := hw
    rw [s.setKeyDown_of_awaitingKey hx]
    exact hinv.congr rfl rfl rfl rfl rfl fun r hr => by cases hr
  · rw [s.setKeyDown_of_not_awaitingKey (not_exists.mp hw)]
    exact hinv.congr rfl rfl rfl rfl rfl hinv.record

theorem transition_inv {e : Event} {x y : Session} {rsp : Response} (h : transition e x = .next (y, rsp))
    (hinv : x.core.Inv) : y.core.Inv := by
  rcases transition_cases h with ⟨-, hy⟩ | ⟨bytes, -, -, hy | hload⟩ | ⟨-, hstep⟩ | ⟨-, hy⟩ | ⟨k, -, hy⟩ | ⟨k, -, hy⟩ |
    ⟨-, hy⟩
  · exact hy ▸ hostReset_inv x.core
  · exact hy ▸ hinv
  · exact loadProgram_inv hinv hload
  · exact step_inv hinv hstep
  · exact hy ▸ tickTimers_inv hinv
  · exact hy ▸ setKeyDown_inv hinv k
  · rw [hy]
    exact hinv.congr rfl rfl rfl rfl rfl hinv.record
  · rw [hy]
    exact hinv.congr rfl rfl rfl rfl rfl hinv.record

/-- Settles O56: every move keeps the invariant, so every run does. -/
theorem everyRunKeepsTheInvariant : Obligations.EveryRunKeepsTheInvariant := fun _ _ _ hinv h =>
  runEvents_induction (P := fun s t => s.Inv → t.Inv) (fun _ => id) (fun h k => k ∘ h) transition_inv h hinv

/-! The font (R52, R56). -/

theorem State.FontIntact.of_bytes {s t : State} (h : s.FontIntact) (hcfg : t.cfg = s.cfg)
    (hbytes : ∀ a, a < fontSize → t.byte a = s.byte a) : t.FontIntact := fun a ha => by
  rw [hbytes a ha, hcfg]
  exact h a ha

theorem byte_congr {s t : State} (hcfg : t.cfg = s.cfg) (hmem : t.mem = s.mem) (a : Nat) : t.byte a = s.byte a := by
  rw [State.byte, State.byte, hcfg, hmem]

/-- A store that passes its check begins above the protected font. -/
theorem exec_font_bytes {i : Instr} {s t : State} (h : exec i s = .next t) (hp : s.cfg.fontPolicy = .fault) {a : Nat}
    (ha : a < fontSize) : t.byte a = s.byte a := by
  rcases exec_mem_cases h with hmem | ⟨bs, ⟨-, hplace⟩, hmem⟩
  · exact byte_congr (exec_cfg h) hmem a
  · have habove : fontSize ≤ s.indexed 0 := hplace.resolve_left (by simp [hp])
    have hcfg : t.cfg = (s.writeBytes (s.indexed 0) bs).cfg := by rw [exec_cfg h, State.writeBytes_cfg]
    rw [byte_congr hcfg hmem, s.byte_writeBytes_outside (.inl (ha.trans_le habove))]

theorem step_font_bytes {s t : State} (h : step s = .next t) (hp : s.cfg.fontPolicy = .fault) {a : Nat}
    (ha : a < fontSize) : t.byte a = s.byte a := by
  rcases step_cases h with ⟨-, rfl⟩ | ⟨-, -, rfl⟩ | ⟨-, -, i, -, hexec⟩ | ⟨-, -, -, rfl⟩
  · rfl
  · rfl
  · exact (exec_font_bytes hexec hp ha).trans (s.byte_skip a)
  · rfl

theorem loadProgram_font_bytes {s t : State} {bytes : List Byte} (h : s.loadProgram bytes = some t) {a : Nat}
    (ha : a < fontSize) : t.byte a = s.byte a := by
  obtain ⟨-, rfl⟩ := s.loadProgram_eq_some h
  exact s.byte_writeBytes_outside (.inl (ha.trans (by decide)))

theorem hostReset_fontIntact (s : State) : s.hostReset.FontIntact := fun _ _ => rfl

theorem transition_font_bytes {e : Event} {x y : Session} {rsp : Response} (h : transition e x = .next (y, rsp))
    (he : e ≠ .reset) (hp : x.core.cfg.fontPolicy = .fault) {a : Nat} (ha : a < fontSize) :
    y.core.byte a = x.core.byte a := by
  rcases transition_cases h with ⟨hreset, -⟩ | ⟨bytes, -, -, hy | hload⟩ | ⟨-, hstep⟩ | ⟨-, hy⟩ | ⟨k, -, hy⟩ |
    ⟨k, -, hy⟩ | ⟨-, hy⟩
  · exact absurd hreset he
  · rw [hy]
  · exact loadProgram_font_bytes hload ha
  · exact step_font_bytes hstep hp ha
  · exact hy ▸ tickTimers_changesOnly _ .mem (by decide) a
  · exact hy ▸ setKeyDown_changesOnly _ k .mem (by decide) a
  · exact hy ▸ setKeyUp_changesOnly _ k .mem (by decide) a
  · exact hy ▸ consumeFrame_changesOnly _ .mem (by decide) a

theorem transition_fontIntact {e : Event} {x y : Session} {rsp : Response} (h : transition e x = .next (y, rsp))
    (hp : x.core.cfg.fontPolicy = .fault) (hfont : x.core.FontIntact) : y.core.FontIntact := by
  by_cases he : e = .reset
  · subst he
    cases h
    exact hostReset_fontIntact x.core
  · exact hfont.of_bytes (transition_cfg h) fun _ => transition_font_bytes h he hp

/-- Settles O57: every move keeps the font under the fault policy, and keeps the policy. -/
theorem fontIsNeverOverwritten : Obligations.FontIsNeverOverwritten := fun _ _ _ hp hfont h =>
  (runEvents_induction
    (P := fun s t => s.cfg.fontPolicy = .fault ∧ s.FontIntact → t.cfg.fontPolicy = .fault ∧ t.FontIntact)
    (fun _ => id) (fun h k => k ∘ h)
    (fun hmove ⟨hp, hfont⟩ => ⟨transition_cfg hmove ▸ hp, transition_fontIntact hmove hp hfont⟩) h ⟨hp, hfont⟩).2

end Sys2Proof.Machine
end

section
/-! PROOF. The key wait (45_keypad.md R237) and Halted (60_exceptions.md R273): what ends them, and what they keep. -/

namespace Sys2Proof.Machine

/-- Any number of steps of a machine that stutters changes nothing. -/
theorem coreRun_of_step_eq_self {M : Host.Core} {s : M.State} (h : M.step s = .next s) (n : Nat) :
    M.run n s = .next s := by
  induction n with
  | zero => rfl
  | succ n ih =>
    rw [Host.Core.run, h]
    exact ih

/-- Settles O8: a core in the wait does not step, and each other move does to the mode what its lemma says. -/
theorem keyWaitHoldsUntilKeyDown : Obligations.KeyWaitHoldsUntilKeyDown := by
  intro s x hx
  refine ⟨coreRun_of_step_eq_self (step_eq_self (by simp [hx])), fun k => ?_, ?_, ?_, fun bytes t h => ?_,
    fun k => ?_, s.hostReset_mode⟩
  · rw [s.setKeyUp_mode, hx]
  · rw [s.tickTimers_mode, hx]
  · rw [s.consumeFrame_mode, hx]
  · rw [s.loadProgram_mode h, hx]
  · rw [s.setKeyDown_of_awaitingKey hx]

/-- A move of a halted core, other than a reset and a load. -/
theorem transition_changesOnly_of_halted {e : Event} {x y : Session} {rsp : Response} {r : ErrorRecord}
    (hx : x.core.mode = .halted r) (he : e ≠ .reset ∧ ∀ bytes, e ≠ .loadProgram bytes)
    (h : transition e x = .next (y, rsp)) : ChangesOnly [.dt, .st, .events, .keys, .dirty] x.core y.core := by
  rcases transition_cases h with ⟨hreset, -⟩ | ⟨bytes, hload, -, -⟩ | ⟨-, hstep⟩ | ⟨-, hy⟩ | ⟨k, -, hy⟩ | ⟨k, -, hy⟩ |
    ⟨-, hy⟩
  · exact absurd hreset he.1
  · exact absurd hload (he.2 bytes)
  · rw [step_eq_self (by simp [hx])] at hstep
    exact Host.Outcome.next.inj hstep ▸ ChangesOnly.refl _ _
  · exact hy ▸ (tickTimers_changesOnly x.core).mono (by decide)
  · exact hy ▸ (setKeyDown_changesOnly_of_not_awaitingKey (by simp [hx]) k).mono (by decide)
  · exact hy ▸ (setKeyUp_changesOnly x.core k).mono (by decide)
  · exact hy ▸ (consumeFrame_changesOnly x.core).mono (by decide)

/-- Settles O9: by induction on the moves; the mode is not among the elements that a move changes. -/
theorem haltedUntilReset : Obligations.HaltedUntilReset := by
  intro es
  induction es with
  | nil =>
    intro x y r hx _ h
    cases h
    exact ⟨hx, ChangesOnly.refl _ _⟩
  | cons e es ih =>
    intro x y r hx hes h
    rw [runEvents] at h
    split at h
    · next z rsp hmove =>
      have hframe := transition_changesOnly_of_halted hx (hes e List.mem_cons_self) hmove
      have hz : z.core.mode = .halted r := (hframe .mode (by decide)).trans hx
      obtain ⟨hy, hrest⟩ := ih z y r hz (fun e' he' => hes e' (List.mem_cons_of_mem e he')) h
      exact ⟨hy, hframe.trans hrest⟩
    · cases h
    · cases h

end Sys2Proof.Machine
end

section
/-! PROOF. Every move has a next state but a load outside its window (60_exceptions.md R290; 70_reset_and_hazards.md
R326). -/

namespace Sys2Proof.Machine

theorem checked_total (i : Instr) (s : State) (check : Nat → Option FatalError) (a n : Nat) (done : State) :
    ∃ t, checked i s check a n done = .next t := by
  rcases checked_cases i s check a n done with ⟨-, h⟩ | ⟨e, bad, -, h⟩
  · exact ⟨_, h⟩
  · exact ⟨_, h⟩

theorem skipOnKey_total (i : Instr) (x : Reg) (level : Bool) (s : State) : ∃ t, skipOnKey i x level s = .next t := by
  rcases Nat.lt_or_ge (s.reg x).toNat 16 with hk | hk
  · exact ⟨_, skipOnKey_of_lt hk i level⟩
  · exact ⟨_, skipOnKey_of_ge hk i level⟩

theorem exec_total (i : Instr) (s : State) : ∃ t, exec i s = .next t := by
  cases i with
  | ret =>
    rcases List.eq_nil_or_concat s.stack with hs | ⟨below, top, hs⟩
    · exact ⟨_, exec_ret_of_nil hs⟩
    · exact ⟨_, exec_ret_of_append (hs.trans List.concat_eq_append)⟩
  | call nnn =>
    by_cases hs : s.stack.length = s.cfg.stackDepth
    · exact ⟨_, exec_call_of_full hs nnn⟩
    · exact ⟨_, exec_call_of_ne hs nnn⟩
  | skp x => exact skipOnKey_total (.skp x) x true s
  | sknp x => exact skipOnKey_total (.sknp x) x false s
  | drw x y n => exact checked_total (.drw x y n) s _ _ _ _
  | ldB x => exact checked_total (.ldB x) s _ _ _ _
  | storeRegs x => exact checked_total (.storeRegs x) s _ _ _ _
  | loadRegs x => exact checked_total (.loadRegs x) s _ _ _ _
  | cls | jp nnn | seImm x nn | sneImm x nn | seReg x y | ldImm x nn | addImm x nn | ldReg x y | orReg x y
  | andReg x y | xorReg x y | addReg x y | sub x y | shr x y | subn x y | shl x y | sneReg x y | ldI nnn | jpV0 nnn
  | rnd x nn | ldVxDt x | ldVxK x | ldDtVx x | ldStVx x | addI x | ldF x => exact ⟨_, rfl⟩

theorem execute_of_some {s : State} {w : Word} {i : Instr} (h : decodeWord w = some i) :
    s.execute w = exec i s.skip := by
  rw [State.execute, h]

theorem execute_of_none {s : State} {w : Word} (h : decodeWord w = none) :
    s.execute w = .next (s.skip.report s.pc w) := by
  rw [State.execute, h]

theorem step_total (s : State) : ∃ t, step s = .next t := by
  by_cases hm : s.mode = .running
  · by_cases hread : Readable s.pc.toNat 2
    · rw [step_eq_execute hm hread]
      cases hdec : decodeWord (s.wordAt s.pc.toNat) with
      | some i =>
        rw [execute_of_some hdec]
        exact exec_total i s.skip
      | none => exact ⟨_, execute_of_none hdec⟩
    · exact ⟨_, step_eq_raiseFetch hm hread⟩
  · exact ⟨_, step_eq_self hm⟩

theorem transition_step {x : Session} {t : State} (h : step x.core = .next t) :
    transition .step x = .next (⟨t, false⟩, .none) := by
  rw [transition, h]

theorem transition_loadProgram_of_closed {x : Session} (h : x.loadOpen = false) (bytes : List Byte) :
    transition (.loadProgram bytes) x = .refused .loadProgramClosed := by
  rw [transition, h]
  rfl

theorem transition_loadProgram_of_some {x : Session} {t : State} {bytes : List Byte} (h : x.loadOpen = true)
    (ht : x.core.loadProgram bytes = some t) :
    transition (.loadProgram bytes) x = .next (⟨t, false⟩, .loaded) := by
  rw [transition, if_pos h, ht]

theorem transition_loadProgram_of_none {x : Session} {bytes : List Byte} (h : x.loadOpen = true)
    (ht : x.core.loadProgram bytes = none) :
    transition (.loadProgram bytes) x = .next (⟨x.core, false⟩, .invalidProgramSize bytes.length) := by
  rw [transition, if_pos h, ht]

/-- A load has a next state while its window is open, in which the window is closed. -/
theorem transition_loadProgram_total {x : Session} (h : x.loadOpen = true) (bytes : List Byte) :
    ∃ y rsp, transition (.loadProgram bytes) x = .next (y, rsp) ∧ y.loadOpen = false := by
  cases ht : x.core.loadProgram bytes with
  | some t => exact ⟨_, _, transition_loadProgram_of_some h ht, rfl⟩
  | none => exact ⟨_, _, transition_loadProgram_of_none h ht, rfl⟩

/-- Settles O11: by cases on the move; of the three clauses about the window the move's own is the one to show. -/
theorem everyMoveHasANextState : Obligations.EveryMoveHasANextState := by
  refine ⟨step_total, fun bytes x h => transition_loadProgram_of_closed h bytes, fun e x hopen => ?_⟩
  cases e with
  | reset => exact ⟨_, _, rfl, by simp⟩
  | loadProgram bytes =>
    have h : x.loadOpen = true := hopen.resolve_right fun hne => hne bytes rfl
    obtain ⟨y, rsp, hmove, hclosed⟩ := transition_loadProgram_total h bytes
    exact ⟨y, rsp, hmove, by simp [hclosed]⟩
  | step =>
    obtain ⟨t, ht⟩ := step_total x.core
    exact ⟨_, _, transition_step ht, by simp⟩
  | tickTimers | setKeyDown k | setKeyUp k | consumeFrame => exact ⟨_, _, rfl, by simp⟩

end Sys2Proof.Machine
end

section
/-! PROOF. The sound (46_timers.md R251, R255, R258): SoundStopped is appended by the two writes of the sound timer,
exactly when they end the sound. -/

namespace Sys2Proof.Machine

theorem soundActive_eq_true {s : State} : s.soundActive = true ↔ s.st ≠ 0 := bne_iff_ne

theorem soundActive_eq_false {s : State} : s.soundActive = false ↔ s.st = 0 := by
  rw [State.soundActive, bne_eq_false_iff_eq]

/-- From `s` to `t` SoundStopped was emitted exactly when the sound ended. -/
def SoundLogged (s t : State) : Prop :=
  t.events = s.events ++ if s.soundActive = true ∧ t.soundActive = false then [.soundStopped] else []

theorem SoundLogged.of_kept {s t : State} (hst : t.st = s.st) (hevents : t.events = s.events) : SoundLogged s t := by
  have hsame : t.soundActive = s.soundActive := by rw [State.soundActive, State.soundActive, hst]
  rw [SoundLogged, hsame, if_neg (by simp), List.append_nil, hevents]

theorem SoundLogged.of_changesOnly {ps : List Part} {s t : State} (h : ChangesOnly ps s t) (hst : Part.st ∉ ps)
    (hevents : Part.events ∉ ps) : SoundLogged s t := .of_kept (h .st hst) (h .events hevents)

theorem ite_append_eq (c : Prop) [Decidable c] (log new : List OutEvent) :
    (if c then log ++ new else log) = log ++ if c then new else [] := by
  split
  · rfl
  · rw [List.append_nil]

theorem setSt_events_append (s : State) (b : Byte) :
    (s.setSt b).events = s.events ++ if s.st ≠ 0 ∧ b = 0 then [.soundStopped] else [] :=
  (s.setSt_events b).trans (ite_append_eq _ _ _)

theorem setSt_soundLogged (s : State) (b : Byte) : SoundLogged s (s.setSt b) := by
  rw [SoundLogged, setSt_events_append, if_congr (and_congr soundActive_eq_true soundActive_eq_false) rfl rfl,
    State.setSt_st]

theorem tickTimers_soundLogged (s : State) : SoundLogged s s.tickTimers := by
  have hends : s.soundActive = true ∧ s.tickTimers.soundActive = false ↔ s.st.toNat = 1 := by
    have htick := s.toNat_tickTimers_st
    rw [soundActive_eq_true, soundActive_eq_false, ← BitVec.toNat_ne_iff_ne, ← BitVec.toNat_inj, htick,
      show (0 : Byte).toNat = 0 from rfl]
    omega
  rw [SoundLogged, s.tickTimers_events, if_congr hends rfl rfl, ite_append_eq]

/-- Only Fx18 writes the sound timer or an event. -/
theorem exec_soundLogged {i : Instr} {s t : State} (h : exec i s = .next t) : SoundLogged s t := by
  by_cases hi : ∃ x, i = .ldStVx x
  · obtain ⟨x, rfl⟩ := hi
    cases h
    exact setSt_soundLogged s _
  · have hrow : Part.st ∉ i.writes ∧ Part.events ∉ i.writes := by
      cases i with
      | ldStVx x => exact absurd ⟨x, rfl⟩ hi
      | _ => simp [Instr.writes]
    exact .of_changesOnly (exec_changesOnly h) hrow.1 hrow.2

theorem step_soundLogged {s t : State} (h : step s = .next t) : SoundLogged s t := by
  rcases step_cases h with ⟨-, rfl⟩ | ⟨-, -, rfl⟩ | ⟨-, -, i, -, hexec⟩ | ⟨-, -, -, rfl⟩
  · exact .of_kept rfl rfl
  · exact .of_kept rfl rfl
  · have hskip : SoundLogged s.skip t := exec_soundLogged hexec
    exact hskip
  · exact .of_kept rfl rfl

theorem transition_soundLogged {e : Event} {x y : Session} {rsp : Response} (h : transition e x = .next (y, rsp))
    (he : e ≠ .reset) : SoundLogged x.core y.core := by
  rcases transition_cases h with ⟨hreset, -⟩ | ⟨bytes, -, -, hy | hload⟩ | ⟨-, hstep⟩ | ⟨-, hy⟩ | ⟨k, -, hy⟩ |
    ⟨k, -, hy⟩ | ⟨-, hy⟩
  · exact absurd hreset he
  · exact hy ▸ .of_kept rfl rfl
  · exact .of_changesOnly (loadProgram_changesOnly hload) (by decide) (by decide)
  · exact step_soundLogged hstep
  · exact hy ▸ tickTimers_soundLogged x.core
  · exact hy ▸ .of_changesOnly (setKeyDown_changesOnly x.core k) (by decide) (by decide)
  · exact hy ▸ .of_changesOnly (setKeyUp_changesOnly x.core k) (by decide) (by decide)
  · exact hy ▸ .of_changesOnly (consumeFrame_changesOnly x.core) (by decide) (by decide)

/-- Settles O50: reset keeps the events, and every other move logs the end of the sound. -/
theorem soundStoppedExactlyWhenSoundEnds : Obligations.SoundStoppedExactlyWhenSoundEnds := by
  intro e x y rsp h
  by_cases he : e = .reset
  · subst he
    cases h
    simp [State.hostReset]
  · simp only [he, ne_eq, not_false_eq_true, true_and]
    exact transition_soundLogged h he

theorem exec_ldStVx (x : Reg) (s : State) : exec (.ldStVx x) s = .next (s.setSt (s.reg x)) := rfl

theorem emitted_of_append {s t : State} {es : List OutEvent} (h : t.events = s.events ++ es) : emitted s t = es := by
  rw [emitted, h, List.drop_left]

/-- Settles O47: `setSt` appends the event where it ends the sound, and what it appends is what was emitted. -/
theorem fx18SetsTheSoundTimer : Obligations.Fx18SetsTheSoundTimer := by
  intro x s
  have hevents := setSt_events_append s (s.reg x)
  have hemitted := emitted_of_append hevents
  exact ⟨_, exec_ldStVx x s, s.setSt_st _, hemitted, hemitted ▸ hevents, setSt_changesOnly s _⟩

/-- Settles O49: by induction on the ticks; the timers are floored at 0 as subtraction on numbers is, and the event
comes at the tick that takes the sound timer from 1. -/
theorem timersNeverGoBelowZero : Obligations.TimersNeverGoBelowZero := by
  intro s n
  induction n with
  | zero => exact ⟨rfl, rfl, (if_neg (by omega)).symm⟩
  | succ n ih =>
    obtain ⟨hdt, hst, hevents⟩ := ih
    rw [Function.iterate_succ_apply', State.toNat_tickTimers_dt, State.toNat_tickTimers_st, State.tickTimers_events,
      hdt, hst, hevents]
    refine ⟨Nat.sub_sub _ _ _, Nat.sub_sub _ _ _, ?_⟩
    by_cases hends : s.st.toNat = n + 1
    · rw [if_pos (by omega), if_neg (by omega), if_pos (by omega)]
    · rw [if_neg (by omega)]
      exact if_congr (by omega) rfl rfl

end Sys2Proof.Machine
end

section
/-! PROOF. The fetch and what stands before the first one: the word at PC is what a step runs (30_encoding.md R73,
R77), reset and the program load (10_state.md R40; 70_reset_and_hazards.md R322, R325). -/

namespace Sys2Proof.Machine

theorem readable_two {a : Nat} : Readable a 2 ↔ a + 1 < 4096 := by
  simp only [Readable, memSize]
  omega

theorem step_eq_exec {s : State} {i : Instr} (hm : s.mode = .running) (hpc : s.pc.toNat + 1 < 4096)
    (hdec : decodeWord (s.wordAt s.pc.toNat) = some i) : step s = exec i s.skip := by
  rw [step_eq_execute hm (readable_two.mpr hpc), execute_of_some hdec]

/-- Settles O5: `skip` is the advance of PC by 2. -/
theorem stepRunsTheDecodedInstruction : Obligations.StepRunsTheDecodedInstruction :=
  fun _ _ hm hpc hdec => step_eq_exec hm hpc hdec

theorem report_changesOnly (s : State) (a w : Word) : ChangesOnly [.diag] s (s.report a w) := by
  intro p hp
  cases p with
  | diag => exact absurd (by decide) hp
  | v => exact s.reg_report a w
  | mem => exact s.byte_report a w
  | i | pc | stack | dt | st | display | dirty | keys | mode | cfg | draws | events => rfl

/-- Settles O6: the step is the advance of PC and then the report. -/
theorem unknownWordIsReportedAndSkipped : Obligations.UnknownWordIsReportedAndSkipped := by
  intro s hm hpc hdec
  have hstep : step s = .next (s.skip.report s.pc (s.wordAt s.pc.toNat)) := by
    rw [step_eq_execute hm (readable_two.mpr hpc)]
    exact execute_of_none hdec
  exact ⟨_, hstep, rfl, rfl, (skip_changesOnly s).comp (report_changesOnly _ _ _) (by decide)⟩

/-- Settles O7: the fetch raises its error at the first byte above 0xFFF. -/
theorem fetchOutsideMemoryHalts : Obligations.FetchOutsideMemoryHalts := fun s hm hpc =>
  ⟨_, step_eq_raiseFetch hm (mt readable_two.mp (Nat.not_lt.mpr hpc)), rfl, raiseFetch_changesOnly s _ _⟩

/-- Settles O25: the target is PC itself, so the jump puts back what the fetch advanced. -/
theorem idleLoopChangesNothing : Obligations.IdleLoopChangesNothing := by
  intro s nnn hm hpc htarget hdec
  have habs : absolute nnn = s.pc := BitVec.eq_of_toNat_eq ((toNat_absolute nnn).trans htarget.symm)
  rw [step_eq_exec hm hpc hdec, exec_jp, habs]
  rfl

/-! Words placed in memory. -/

theorem wordAt_writeBytes {s : State} (h : s.mem.sorted) (a : Nat) {bs : List Byte} (hbs : 1 < bs.length) :
    (s.writeBytes a bs).wordAt a = wordOfBytes bs[0] bs[1] := by
  rw [State.wordAt, s.byte_writeBytes_inside h hbs]
  exact congrArg (wordOfBytes · _) (s.byte_writeBytes_inside h (k := 0) (Nat.zero_lt_of_lt hbs))

theorem decodeTableWord_eq (nbits w : Nat) :
    decodeTableWord nbits w = decodeWord (BitVec.ofNat 16 (w % 2 ^ nbits)) := by
  simp only [decodeTableWord, tableWordBytes, decode, wordOfBytes_highByte_lowByte]
  cases decodeWord (BitVec.ofNat 16 (w % 2 ^ nbits)) <;> rfl

/-- Settles O15: the two bytes stand at a PC from which they can be fetched, and make up the word again. -/
theorem placedWordIsRunNext : Obligations.PlacedWordIsRunNext := by
  intro s w i hwf hdec
  have hmode : (s.withFetchWord 16 w).mode = .running := by rw [State.withFetchWord, State.writeBytes_mode]
  have hpc : (s.withFetchWord 16 w).pc = if s.pc.toNat + 1 < memSize then s.pc else pcReset := by
    rw [State.withFetchWord, State.writeBytes_pc]
  have hword : (s.withFetchWord 16 w).wordAt (s.withFetchWord 16 w).pc.toNat = BitVec.ofNat 16 (w % 2 ^ 16) := by
    rw [hpc]
    exact (wordAt_writeBytes (bs := tableWordBytes 16 w) hwf.1 _ (Nat.lt_succ_self 1)).trans
      (wordOfBytes_highByte_lowByte _)
  refine step_eq_exec hmode ?_ (by rw [hword, ← decodeTableWord_eq, hdec])
  rw [hpc]
  split
  · assumption
  · decide

/-! Reset. -/

theorem hostReset_changesOnly (s : State) : ChangesOnly [.draws, .events] (State.resetWith s.cfg) s.hostReset := by
  intro p hp
  cases p with
  | draws | events => exact absurd (by decide) hp
  | v | mem => exact fun _ => rfl
  | i | pc | stack | dt | st | display | dirty | keys | mode | diag | cfg => rfl

theorem byte_resetWith (p : Params) (a : Nat) : (State.resetWith p).byte a = resetByte p.font a := rfl

theorem reg_resetWith (p : Params) (r : Reg) : (State.resetWith p).reg r = 0 := Vector.getElem_replicate r.isLt

theorem keys_resetWith (p : Params) (k : Key) : (State.resetWith p).keys[k.val] = false :=
  Vector.getElem_replicate k.isLt

theorem resetByte_above (font : Font) {a : Nat} (h : 0x050 ≤ a) : resetByte font a = 0 := dif_neg (Nat.not_lt.mpr h)

/-- The default font, read from memory after reset. -/
theorem reset_font_bytes : (List.range 80).map State.reset.byte = defaultFont.toList.flatMap Vector.toList := rfl

/-- Settles O12: reset by its elements, the defaults, and the host's reset, which keeps the draws and the events. -/
theorem resetState : Obligations.ResetState := by
  refine ⟨fun p => ?_, ⟨rfl, Nat.le_add_left _ _, rfl, rfl, rfl, reset_font_bytes⟩,
    fun s => ⟨hostReset_changesOnly s, rfl⟩⟩
  exact ⟨reg_resetWith p, rfl, rfl, rfl, rfl, rfl,
    fun d k hd hk => (byte_resetWith p _).trans (resetByte_glyph _ hd hk),
    fun a ha => (byte_resetWith p a).trans (resetByte_above _ ha), pixel_blankDisplay, rfl, keys_resetWith p,
    rfl, rfl, rfl⟩

/-! The program load. -/

theorem loadProgram_of_le {bytes : List Byte} (h : bytes.length ≤ 3584) (s : State) :
    s.loadProgram bytes = some (s.writeBytes loadBase bytes) :=
  if_pos (decide_eq_true h)

theorem loadProgram_of_gt {bytes : List Byte} (h : 3584 < bytes.length) (s : State) : s.loadProgram bytes = none :=
  if_neg fun hfits => Nat.not_lt.mpr (of_decide_eq_true hfits) h

/-- Settles O14: an image that fits is stored from 0x200 up, a longer one is turned away. -/
theorem loadProgramCopiesTheImage : Obligations.LoadProgramCopiesTheImage := by
  intro s bytes hwf
  constructor
  · intro hlen
    have hload := loadProgram_of_le hlen s
    exact ⟨_, transition_loadProgram_of_some rfl hload, hload, fun k hk => s.byte_writeBytes_inside hwf.1 hk,
      fun b hb => s.byte_writeBytes_outside hb, writeBytes_changesOnly s loadBase bytes⟩
  · intro hlen
    have hload := loadProgram_of_gt hlen s
    exact ⟨transition_loadProgram_of_none rfl hload, hload⟩

/-- Settles O13: the load keeps PC, the mode and the keys of reset, and puts the first word at PC. -/
theorem firstStepRunsTheWordAt0x200 : Obligations.FirstStepRunsTheWordAt0x200 := by
  intro p hi lo rest s i hload hdec
  have hframe := loadProgram_changesOnly hload
  have hpc : s.pc = 0x200 := hframe .pc (by decide)
  have hmode : s.mode = .running := hframe .mode (by decide)
  have hkeys : s.keys = (State.resetWith p).keys := hframe .keys (by decide)
  have hword : s.wordAt s.pc.toNat = wordOfBytes hi lo := by
    rw [hpc, ((State.resetWith p).loadProgram_eq_some hload).2]
    exact wordAt_writeBytes (bs := hi :: lo :: rest) List.Pairwise.nil loadBase (by simp)
  have hskip : s.skip = { s with pc := 0x202 } := by
    rw [State.skip, hpc]
    rfl
  refine ⟨hpc, hmode, fun k => ?_, ?_⟩
  · exact (congrArg (·[k.val]) hkeys).trans (keys_resetWith p k)
  · rw [← hskip]
    exact step_eq_exec hmode (by rw [hpc]; decide) (by rw [hword, hdec])

end Sys2Proof.Machine
end

section
/-! PROOF. The remaining instructions, from what each of them answers: returns and calls (41_flow.md), the random draw
(43_alu.md R173), the index register and the transfers (44_index_memory.md), the key skips (45_keypad.md R233). -/

namespace Sys2Proof.Machine

/-! Returns and calls. -/

/-- Settles O20: a stack with a top, and an empty one. -/
theorem retPopsTheReturnAddress : Obligations.RetPopsTheReturnAddress := by
  intro s
  constructor
  · intro below top hs
    have hpop : (s.pop.setPc top).stack = below := by
      rw [State.setPc_stack, State.pop_stack, hs, List.dropLast_concat]
    exact ⟨_, exec_ret_of_append hs, rfl, hpop, pop_setPc_changesOnly s top⟩
  · exact fun hs => ⟨_, exec_ret_of_nil hs, rfl, raise_changesOnly s _ _ _⟩

/-- Settles O21: a stack with room, and a full one. -/
theorem callPushesTheReturnAddress : Obligations.CallPushesTheReturnAddress := fun nnn s =>
  ⟨fun hs => ⟨_, exec_call_of_ne hs nnn, rfl, toNat_absolute nnn, push_setPc_changesOnly s _ _⟩,
    fun hs => ⟨_, exec_call_of_full hs nnn, rfl, raise_changesOnly s _ _ _⟩⟩

theorem pop_push (s : State) (w : Word) : (s.push w).pop = s := by
  rw [State.pop, State.push_stack, List.dropLast_concat]
  rfl

/-- Settles O22: the return pops what the call pushed, and PC goes back to it. -/
theorem returnUndoesCall : Obligations.ReturnUndoesCall := by
  intro nnn s hs
  have hback : ((s.push s.pc).setPc (absolute nnn)).pop.setPc s.pc = s := pop_push s s.pc
  refine ⟨_, _, exec_call_of_ne hs nnn, exec_ret_of_append rfl, ?_⟩
  rw [hback]
  exact ChangesOnly.refl [] s

theorem exec_jpV0 (nnn : Addr12) (s : State) : exec (.jpV0 nnn) s = .next (s.setPc (s.basePlusV0 nnn)) := rfl

/-- Settles O24: the sum fits a word, so it is exact. -/
theorem jpV0AddsV0 : Obligations.JpV0AddsV0 := fun nnn s =>
  ⟨_, exec_jpV0 nnn s, toNat_basePlusV0 s nnn, setPc_changesOnly s _⟩

/-- Settles O33: the draw is counted, and the destination gets its masked byte. -/
theorem rndMasksOneDraw : Obligations.RndMasksOneDraw := by
  intro x nn s
  refine ⟨_, exec_rnd x nn s, fun b => ?_, rfl, setReg_regsKept s.draw.2 x _, rnd_changesOnly x _ s⟩
  rw [reg_setReg_same, BitVec.getLsbD_and]

/-! The index register. -/

theorem indexFlag_eq_ite (sum : Nat) : indexFlag sum = if sum > 0xFFF then 1 else 0 := by
  simp only [indexFlag, bitByte, decide_eq_true_eq]

/-- Settles O35: I gets the sum modulo 0x10000 with and without the flag. -/
theorem addIndexWithFlag : Obligations.AddIndexWithFlag := by
  intro x s
  refine ⟨_, exec_addI x s, ?_, ?_, addI_regsKept s _ _ _, addI_changesOnly s _ _ _⟩
  · cases s.cfg.fx1eSetsVF <;> exact BitVec.toNat_ofNat _ _
  · cases s.cfg.fx1eSetsVF with
    | true => exact (reg_setReg_same _ VF _).trans (indexFlag_eq_ite _)
    | false => rfl

theorem exec_ldF (x : Reg) (s : State) : exec (.ldF x) s = .next (s.setI (BitVec.ofNat 16 (5 * (s.reg x).toNat))) := rfl

/-- Settles O36: five times a byte fits a word; below the size of an intact font it is where a glyph stands. -/
theorem ldFPointsAtTheGlyph : Obligations.LdFPointsAtTheGlyph := by
  intro x s
  have hi : (BitVec.ofNat 16 (5 * (s.reg x).toNat)).toNat = 5 * (s.reg x).toNat := by
    have hx := (s.reg x).isLt
    rw [BitVec.toNat_ofNat]
    omega
  refine ⟨_, exec_ldF x s, hi, fun hfont hdigit k hk => ?_, setI_changesOnly s _⟩
  rw [State.byte_setI, State.setI_i, hi, hfont _ (by simp only [fontSize]; omega), resetByte_glyph _ hdigit hk]

/-! The transfers between registers and memory, on a range that passes its check. -/

theorem checked_of_none {i : Instr} {s done : State} {check : Nat → Option FatalError} {a n : Nat}
    (h : firstFailure check a n = none) : checked i s check a n done = .next done := by
  rw [checked, h]

theorem exec_ldB_of_writable {x : Reg} {s : State} (h : Writable s.cfg (s.indexed 0) 3) :
    exec (.ldB x) s = .next (s.writeBytes (s.indexed 0) (bcdDigits (s.reg x))) :=
  checked_of_none ((firstFailure_checkWrite_none (by decide)).mpr h)

theorem exec_storeRegs_of_writable {x : Reg} {s : State} (h : Writable s.cfg (s.indexed 0) (x.val + 1)) :
    exec (.storeRegs x) s = .next (s.writeBytes (s.indexed 0) (s.regsUpTo x)) :=
  checked_of_none ((firstFailure_checkWrite_none (Nat.succ_pos _)).mpr h)

theorem exec_loadRegs_of_readable {x : Reg} {s : State} (h : Readable (s.indexed 0) (x.val + 1)) :
    exec (.loadRegs x) s = .next { s with v := setRegsFrom s.v 0 (s.readBytes (s.indexed 0) (x.val + 1)) } :=
  checked_of_none (firstFailure_checkRead_none.mpr h)

/-- Settles O37: each digit is below 256, so the byte stored for it holds it. -/
theorem bcdStoresThreeDigits : Obligations.BcdStoresThreeDigits := by
  intro x s hwf hw
  have hx := (s.reg x).isLt
  have hdigit (k : Nat) (hk : k < 3) :
      (s.writeBytes (s.indexed 0) (bcdDigits (s.reg x))).byte (s.indexed 0 + k) = (bcdDigits (s.reg x))[k] :=
    s.byte_writeBytes_inside hwf.1 (bs := bcdDigits (s.reg x)) hk
  refine ⟨_, exec_ldB_of_writable hw, ?_, ?_, ?_, fun b hb => s.byte_writeBytes_outside hb,
    writeBytes_changesOnly s _ _⟩
  · refine (congrArg BitVec.toNat (hdigit 0 (by decide))).trans ?_
    simp only [bcdDigits, List.getElem_cons_zero, BitVec.toNat_ofNat]
    omega
  · refine (congrArg BitVec.toNat (hdigit 1 (by decide))).trans ?_
    simp only [bcdDigits, List.getElem_cons_succ, List.getElem_cons_zero, BitVec.toNat_ofNat]
    omega
  · refine (congrArg BitVec.toNat (hdigit 2 (by decide))).trans ?_
    simp only [bcdDigits, List.getElem_cons_succ, List.getElem_cons_zero, BitVec.toNat_ofNat]
    omega

theorem byte_writeBytes_regsUpTo {s : State} (h : s.mem.sorted) (a : Nat) {x r : Reg} (hr : r ≤ x) :
    (s.writeBytes a (s.regsUpTo x)).byte (a + r.val) = s.reg r := by
  have hk : r.val < (s.regsUpTo x).length := by
    rw [s.length_regsUpTo]
    exact Nat.lt_succ_of_le hr
  rw [s.byte_writeBytes_inside h hk, s.getElem_regsUpTo hk]

/-- Settles O38: the bytes stored are the registers up to Vx. -/
theorem storeRegsStoresV0ToVx : Obligations.StoreRegsStoresV0ToVx := by
  intro x s hwf hw
  have hexec := exec_storeRegs_of_writable hw
  exact ⟨_, hexec, fun r hr => byte_writeBytes_regsUpTo hwf.1 _ hr, exec_storeRegs_bytesKept hexec,
    writeBytes_changesOnly s _ _⟩

theorem reg_setRegsFrom_readBytes {s : State} (a : Nat) {x r : Reg} (hr : r ≤ x) :
    ({ s with v := setRegsFrom s.v 0 (s.readBytes a (x.val + 1)) } : State).reg r = s.byte (a + r.val) := by
  have hk : r.val < (s.readBytes a (x.val + 1)).length := by
    rw [s.length_readBytes]
    exact Nat.lt_succ_of_le hr
  rw [reg_setRegsFrom, dif_pos hk, s.getElem_readBytes hk]

/-- Settles O39: the registers up to Vx get the bytes read, those above keep their value. -/
theorem loadRegsLoadsV0ToVx : Obligations.LoadRegsLoadsV0ToVx := fun _ s hread =>
  ⟨_, exec_loadRegs_of_readable hread, fun _ hr => reg_setRegsFrom_readBytes _ hr,
    fun _ hr => reg_setRegsFrom_above (s.length_readBytes _ _) hr, withV_changesOnly s _⟩

/-! The same instructions and Dxyn on a range that does not. -/

theorem checked_halts {check : Nat → Option FatalError} {a n : Nat} {e : FatalError} {bad : Nat}
    (h : firstFailure check a n = some (e, bad)) (i : Instr) (s done : State) :
    ∃ t, checked i s check a n done = .next t ∧ t.mode = .halted ⟨e, s.pc - 2, some (encode i), some bad⟩ ∧
      ChangesOnly [.mode] s t :=
  ⟨_, by rw [checked, h], s.raise_mode i e _, raise_changesOnly s i e _⟩

/-- Settles O40: the reads and the stores share `checked_halts`; the first failure is that of the check's law. -/
theorem badAddressesHaltWithNothingWritten : Obligations.BadAddressesHaltWithNothingWritten := by
  intro i n s
  refine ⟨fun hi hread => ?_, fun hi => ⟨fun hp ha => ?_, fun hp hn => ?_⟩⟩
  · have hfail := firstFailure_checkRead_some hread
    rcases hi with ⟨x, y, m, rfl, rfl⟩ | ⟨x, rfl, rfl⟩
    · exact checked_halts hfail _ s _
    · exact checked_halts hfail _ s _
  · rcases hi with ⟨x, rfl, rfl⟩ | ⟨x, rfl, rfl⟩
    · exact checked_halts (firstFailure_checkWrite_font (Nat.succ_pos _) hp ha) _ s _
    · exact checked_halts (firstFailure_checkWrite_font (Nat.succ_pos _) hp ha) _ s _
  · rcases hi with ⟨x, rfl, rfl⟩ | ⟨x, rfl, rfl⟩
    · exact checked_halts (firstFailure_checkWrite_bounds hp hn (Nat.succ_pos _)) _ s _
    · exact checked_halts (firstFailure_checkWrite_bounds hp hn (Nat.succ_pos _)) _ s _

/-- Settles O41: after the store PC is at I, where V0 and V1 now stand. -/
theorem storedWordIsFetchedNext : Obligations.StoredWordIsFetchedNext := by
  intro s x i hwf hm hpc hdec hx hi hw hword
  have hpc2 : (s.pc + 2).toNat = s.pc.toNat + 2 := toNat_skip_pc (readable_two.mpr (by omega))
  have hstep : step s = .next (s.skip.writeBytes s.i.toNat (s.skip.regsUpTo x)) := by
    rw [step_eq_exec hm (by omega) hdec]
    exact exec_storeRegs_of_writable hw
  have hmode : (s.skip.writeBytes s.i.toNat (s.skip.regsUpTo x)).mode = .running :=
    (State.writeBytes_mode _ _ _).trans hm
  have hnext : (s.skip.writeBytes s.i.toNat (s.skip.regsUpTo x)).pc = s.pc + 2 := State.writeBytes_pc _ _ _
  have hfetch : (s.skip.writeBytes s.i.toNat (s.skip.regsUpTo x)).wordAt (s.pc + 2).toNat =
      wordOfBytes (s.reg 0) (s.reg 1) := by
    have hlen : 1 < (s.skip.regsUpTo x).length := by
      rw [State.length_regsUpTo]
      omega
    rw [← hi, wordAt_writeBytes (s := s.skip) hwf.1 _ hlen, State.getElem_regsUpTo, State.getElem_regsUpTo]
    rfl
  refine ⟨_, hstep, ?_⟩
  rw [step_eq_exec hmode (by rw [hnext]; omega) (by rw [hnext, hfetch, hword]), State.skip, hnext, BitVec.add_assoc]
  rfl

/-! The key skips. -/

theorem exec_skp (x : Reg) (s : State) : exec (.skp x) s = skipOnKey (.skp x) x true s := rfl

theorem exec_sknp (x : Reg) (s : State) : exec (.sknp x) s = skipOnKey (.sknp x) x false s := rfl

/-- Settles O42: below 16 a skip on the key's level, from 16 up the error. -/
theorem keySkips : Obligations.KeySkips := by
  intro x s
  refine ⟨fun hk => ⟨?_, ?_⟩, fun hk i hi => ?_⟩
  · exact exec_skips_of_iff ((exec_skp x s).trans (skipOnKey_of_lt hk _ true)) beq_iff_eq
  · exact exec_skips_of_iff ((exec_sknp x s).trans (skipOnKey_of_lt hk _ false)) beq_iff_eq
  · rcases hi with rfl | rfl
    · exact ⟨_, skipOnKey_of_ge hk _ true, rfl, raise_changesOnly s _ _ _⟩
    · exact ⟨_, skipOnKey_of_ge hk _ false, rfl, raise_changesOnly s _ _ _⟩

end Sys2Proof.Machine
end

section
/-! PROOF. Drawing and reading the display (40_display.md R100 to R109). The pixels that a draw flips are those that a
set bit of the sprite covers (`pixel_xorBlit`), whatever the display holds; so a second draw flips them back, and a
collision is a pixel that the draw turned off. -/

namespace Sys2Proof.Machine

theorem exec_drw_of_readable {n : Fin 16} {s : State} (h : Readable (s.indexed 0) n.val) (x y : Reg) :
    exec (.drw x y n) s =
      .next (s.drawn (xorBlit s.display (s.reg x) (s.reg y) (s.readBytes (s.indexed 0) n.val))) :=
  checked_of_none (firstFailure_checkRead_none.mpr h)

/-- A sprite has at most fifteen rows, so it fits the display. -/
theorem length_sprite_le (s : State) (a : Nat) (n : Fin 16) : (s.readBytes a n.val).length ≤ 32 := by
  have hn := n.isLt
  rw [s.length_readBytes]
  omega

theorem covers_readBytes {px py : Byte} {s : State} {a n : Nat} {X : Fin 64} {Y : Fin 32} :
    Covers px py (s.readBytes a n) X Y ↔
      ∃ r b, r < n ∧ b < 8 ∧ X.val = (px.toNat + b) % 64 ∧ Y.val = (py.toNat + r) % 32 ∧
        (s.byte (a + r)).getLsbD (7 - b) = true := by
  constructor
  · rintro ⟨r, b, hr, hb, rfl, rfl, hbit⟩
    rw [s.getElem_readBytes hr] at hbit
    exact ⟨r, b, s.length_readBytes a n ▸ hr, hb, rfl, rfl, hbit⟩
  · rintro ⟨r, b, hr, hb, hX, hY, hbit⟩
    refine ⟨r, b, (s.length_readBytes a n).symm ▸ hr, hb, Fin.ext hX, Fin.ext hY, ?_⟩
    rw [s.getElem_readBytes]
    exact hbit

/-- The collision is a pixel that went from on to off. -/
theorem collided_iff_turned_off (d : Display) (px py : Byte) {rows : List Byte} (h : rows.length ≤ 32) :
    (xorBlit d px py rows).2 = true ↔
      ∃ X Y, d.pixel X Y = true ∧ (xorBlit d px py rows).1.pixel X Y = false := by
  rw [collided_xorBlit d px py h]
  refine exists_congr fun X => exists_congr fun Y => ?_
  rw [← pixel_xorBlit d px py h, and_comm]
  exact and_congr_right fun hon => by rw [hon, ne_eq, Bool.not_eq_true]

/-- A draw flips the same pixels of every display, so two draws flip none. -/
theorem xorBlit_xorBlit (d : Display) (px py : Byte) {rows : List Byte} (h : rows.length ≤ 32) :
    (xorBlit (xorBlit d px py rows).1 px py rows).1 = d := by
  refine Display.ext_pixel fun X Y => ?_
  have hflip : (xorBlit (xorBlit d px py rows).1 px py rows).1.pixel X Y ≠ (xorBlit d px py rows).1.pixel X Y ↔
      (xorBlit d px py rows).1.pixel X Y ≠ d.pixel X Y :=
    (pixel_xorBlit _ px py h X Y).trans (pixel_xorBlit d px py h X Y).symm
  revert hflip
  generalize (xorBlit (xorBlit d px py rows).1 px py rows).1.pixel X Y = twice
  generalize (xorBlit d px py rows).1.pixel X Y = once
  generalize d.pixel X Y = before
  revert twice once before
  decide

theorem bitByte_eq_one {b : Bool} : bitByte b = 1 ↔ b = true := by
  cases b <;> decide

theorem bitByte_eq_zero_or_one (b : Bool) : bitByte b = 0 ∨ bitByte b = 1 := by
  cases b <;> decide

theorem reg_drawn_VF (s : State) (blit : Display × Bool) : (s.drawn blit).reg VF = bitByte blit.2 :=
  reg_setReg_same _ VF _

/-- Settles O17: the pixels that change are those the sprite covers, and VF is the collision. -/
theorem drwXorsTheSprite : Obligations.DrwXorsTheSprite := by
  intro x y n s hread
  have hlen := length_sprite_le s (s.indexed 0) n
  refine ⟨_, exec_drw_of_readable hread x y, fun X Y => ?_, ?_, ?_, rfl, drawn_regsKept s _, drawn_changesOnly s _⟩
  · exact (pixel_xorBlit _ _ _ hlen X Y).trans covers_readBytes
  · rw [reg_drawn_VF, bitByte_eq_one]
    exact collided_iff_turned_off _ _ _ hlen
  · rw [reg_drawn_VF]
    exact bitByte_eq_zero_or_one _

theorem readBytes_congr {s t : State} (h : ∀ a, t.byte a = s.byte a) (a n : Nat) :
    t.readBytes a n = s.readBytes a n := by
  induction n generalizing a with
  | zero => rfl
  | succ n ih => rw [State.readBytes, State.readBytes, h, ih]

/-- Settles O18: both draws are of the same rows at the same place, so the second undoes the first; what it turns off is
what the first turned on. -/
theorem drawingTwiceRestoresTheDisplay : Obligations.DrawingTwiceRestoresTheDisplay := by
  intro x y n s t u hread ht hx hy hu
  have hlen := length_sprite_le s (s.indexed 0) n
  rw [exec_drw_of_readable hread] at ht
  obtain rfl := Host.Outcome.next.inj ht
  rw [exec_drw_of_readable (s := s.drawn _) hread, hx, hy, readBytes_congr (s.byte_drawn _)] at hu
  obtain rfl := Host.Outcome.next.inj hu
  have hback := xorBlit_xorBlit s.display (s.reg x) (s.reg y) hlen
  refine ⟨hback, ?_⟩
  rw [reg_drawn_VF, bitByte_eq_one]
  refine (collided_iff_turned_off _ _ _ hlen).trans (exists_congr fun X => exists_congr fun Y => ?_)
  rw [and_comm]
  exact and_congr_left' (iff_of_eq (congrArg (Display.pixel · X Y = false) hback))

/-- The element of the returned grid that holds a given pixel (R109). -/
theorem getElem_pixelGrid (s : State) (X : Fin 64) (Y : Fin 32) (h : 64 * Y.val + X.val < 32 * 64) :
    s.pixelGrid[64 * Y.val + X.val] = s.display.pixel X Y := by
  have hx := X.isLt
  have hy := Y.isLt
  have hX : Fin.ofNat 64 (64 * Y.val + X.val) = X := Fin.ext (by rw [Fin.val_ofNat]; omega)
  have hY : Fin.ofNat 32 ((64 * Y.val + X.val) / 64) = Y := Fin.ext (by rw [Fin.val_ofNat]; omega)
  rw [State.pixelGrid, Vector.getElem_ofFn]
  exact congrArg₂ s.display.pixel hX hY

/-- Settles O19: the grid is laid out row by row, and only the flag is cleared. -/
theorem consumeFrameReturnsTheGrid : Obligations.ConsumeFrameReturnsTheGrid := by
  intro s
  refine ⟨?_, rfl, rfl, consumeFrame_changesOnly s⟩
  rintro X Y k hX hY hk rfl
  exact getElem_pixelGrid s ⟨X, hX⟩ ⟨Y, hY⟩ hk

end Sys2Proof.Machine
end
